-- ==== Sys2Proof/Word.lean ====
section
/-! DEFINITION. The word, byte and register-index types of the CAP01 core and the plainest arithmetic on them
(00_scope.md R6, R8). -/

namespace Sys2Proof

/-- A 32-bit vector, bit 31 the most significant: an instruction word, a register value, a data word or an address
(R6, R22, R23). -/
abbrev Word := BitVec 32

/-- One byte of the byte view of a word (R50). -/
abbrev Byte := BitVec 8

/-- A register index, 0 to 31; every one names an ordinary register (R21, R73). -/
abbrev Reg := Fin 32

/-- `wrap32(z)`: the 32-bit vector congruent to the integer `z` modulo 2^32 (R8). -/
def wrap32 (z : Int) : Word := BitVec.ofInt 32 z

end Sys2Proof
end

