-- ==== Sys2Proof/Machine/Alu.lean ====
section
/-! DEFINITION. The ALU's operations, shared by the register and the immediate forms. Arithmetic is exact on the
signed readings and keeps the low 32 bits (43_alu_register.md R148); logic is bit by bit (R150). Overflow is silent. -/

namespace Sys2Proof.Machine

/-- ADD and ADDI: `wrap32(signed(a) + signed(b))` (R141, R161). -/
def aluAdd (a b : Word) : Word := wrap32 (a.toInt + b.toInt)

/-- SUB: `wrap32(signed(a) - signed(b))`, `a` the minuend (R142). -/
def aluSub (a b : Word) : Word := wrap32 (a.toInt - b.toInt)

/-- MUL: `wrap32(signed(a) × signed(b))` (R143, R149). -/
def aluMul (a b : Word) : Word := wrap32 (a.toInt * b.toInt)

/-- AND and ANDI (R144, R162). -/
def aluAnd (a b : Word) : Word := a &&& b

/-- OR and ORI (R145, R163). -/
def aluOr (a b : Word) : Word := a ||| b

/-- XOR and XORI (R146, R164). -/
def aluXor (a b : Word) : Word := a ^^^ b

/-- NOR: `~(a | b)` (R147). -/
def aluNor (a b : Word) : Word := ~~~(a ||| b)

end Sys2Proof.Machine
end

