-- ==== Sys2Proof/Syntax.lean ====
section
/-! DEFINITION. The Decoded Instruction (40_decoder.md R104): one constructor per row of spec/opcode_table.json,
carrying the decoded operands (the scaled target and offsets, the sign-extended immediate), not the raw fields. -/

namespace Sys2Proof

/-- The closed set of 17 instructions with the operand fields of R104, in the order of its list.
Operands are 32-bit values: `target` read unsigned, `offset` and `imm` read signed. -/
inductive Instr where
  | j (target : Word)
  | beq (rs rt : Reg) (offset : Word)
  | bgtz (rs : Reg) (offset : Word)
  | brk
  | sw (rt : Reg) (offset : Word) (base : Reg)
  | lw (rt : Reg) (offset : Word) (base : Reg)
  | add (rd rs rt : Reg)
  | sub (rd rs rt : Reg)
  | mul (rd rs rt : Reg)
  | and (rd rs rt : Reg)
  | or (rd rs rt : Reg)
  | xor (rd rs rt : Reg)
  | nor (rd rs rt : Reg)
  | addi (rt rs : Reg) (imm : Word)
  | andi (rt rs : Reg) (imm : Word)
  | ori (rt rs : Reg) (imm : Word)
  | xori (rt rs : Reg) (imm : Word)
deriving DecidableEq, Repr

/-- The seven operations a Category 2 sub-opcode selects (R75). -/
inductive AluRegOp where
  | add | sub | mul | and | or | xor | nor
deriving DecidableEq, Repr

/-- The four operations a Category 3 sub-opcode selects (R76). -/
inductive AluImmOp where
  | addi | andi | ori | xori
deriving DecidableEq, Repr

end Sys2Proof
end

