-- ==== Sys2Proof/WellFormed.lean ====
section
/-! DEFINITION. Which Decoded Instructions are within the ranges of 40_decoder.md R104. Register indices are in
range by their type. -/

namespace Sys2Proof

/-- A jump target: 0 to 0x0FFFFFFC, a multiple of 4 (R77, R104). -/
def targetOk (target : Word) : Bool :=
  target.toNat ≤ 268435452 && target.toNat % 4 == 0

/-- A branch offset: -131072 to 131068, a multiple of 4 (R78, R104). -/
def branchOffsetOk (offset : Word) : Bool :=
  -131072 ≤ offset.toInt && offset.toInt ≤ 131068 && offset.toNat % 4 == 0

/-- A memory offset or an ALU immediate: -32768 to 32767 (R79, R80, R104). -/
def immOk (imm : Word) : Bool :=
  -32768 ≤ imm.toInt && imm.toInt ≤ 32767

/-- The ranges of R104's table, constructor by constructor. -/
def Instr.wellFormed : Instr → Bool
  | .j target => targetOk target
  | .beq _ _ offset => branchOffsetOk offset
  | .bgtz _ offset => branchOffsetOk offset
  | .brk => true
  | .sw _ offset _ => immOk offset
  | .lw _ offset _ => immOk offset
  | .add _ _ _ => true
  | .sub _ _ _ => true
  | .mul _ _ _ => true
  | .and _ _ _ => true
  | .or _ _ _ => true
  | .xor _ _ _ => true
  | .nor _ _ _ => true
  | .addi _ _ imm => immOk imm
  | .andi _ _ imm => immOk imm
  | .ori _ _ imm => immOk imm
  | .xori _ _ imm => immOk imm

end Sys2Proof
end

