-- ==== Sys2Proof/Decode.lean ====
section
/-! DEFINITION. The bit-field codec, the instruction decoder and its inverse, the encoder (30_encoding.md,
40_decoder.md R100 to R109). -/

namespace Sys2Proof

/-! ### The bit-field codec (R101, R102) -/

/-- `field(word, start, stop)`: the characters `[start, stop)` of the word's text, character 0 being bit 31 (R101, R6). -/
def field (w : Word) (start stop : Nat) : BitVec (stop - start) :=
  w.extractLsb' (32 - stop) (stop - start)

/-- `signedValue(bits)` by the procedure of R102, on a bit string of nonzero length: the first character is the sign;
where it is 1, invert every remaining bit, read it unsigned, add 1, negate. -/
def signedValue {n : Nat} (bits : BitVec (n + 1)) : Int :=
  let remaining := bits.setWidth n
  if bits.msb then -(((~~~remaining).toNat : Int) + 1) else (remaining.toNat : Int)

/-- `sext_32(v)` (R8): the new high bits copy the top bit of `v`. -/
def sext32 {n : Nat} (v : BitVec n) : Word := v.signExtend 32

/-- `zext_32(v)` (R8): the new high bits are 0. -/
def zext32 {n : Nat} (v : BitVec n) : Word := v.setWidth 32

/-! ### The fields of the five formats (R72) -/

/-- The major opcode, `instr[31:29]` (R71). -/
def majorOf (w : Word) : BitVec 3 := w.extractLsb' 29 3

/-- The Category 1 sub-opcode, `instr[28:26]` (R74). -/
def sub1Of (w : Word) : BitVec 3 := w.extractLsb' 26 3

/-- The Category 2 and 3 sub-opcode, `instr[18:16]` (R75, R76). -/
def subAluOf (w : Word) : BitVec 3 := w.extractLsb' 16 3

/-- The 5-bit register field whose lowest bit is `lo` (R73). -/
def regAt (w : Word) (lo : Nat) : Reg := ⟨(w.extractLsb' lo 5).toNat, (w.extractLsb' lo 5).isLt⟩

/-- Category 1 rs, or base: `instr[25:21]`. -/
def rs1Of (w : Word) : Reg := regAt w 21

/-- Category 1 rt: `instr[20:16]`. -/
def rt1Of (w : Word) : Reg := regAt w 16

/-- Category 2 and 3 rs: `instr[28:24]`. -/
def rsAluOf (w : Word) : Reg := regAt w 24

/-- Category 2 and 3 rt: `instr[23:19]`. -/
def rtAluOf (w : Word) : Reg := regAt w 19

/-- Category 2 rd: `instr[15:11]`. -/
def rdOf (w : Word) : Reg := regAt w 11

/-- The jump target: `zext_32(instr[25:0] ++ 0b00)` (R77). -/
def targetOf (w : Word) : Word := zext32 (w.extractLsb' 0 26 ++ 0b00#2)

/-- The branch offset: `sext_32(instr[15:0] ++ 0b00)` (R78). -/
def branchOffsetOf (w : Word) : Word := sext32 (w.extractLsb' 0 16 ++ 0b00#2)

/-- The memory offset and the ALU immediate: `sext_32(instr[15:0])` (R79, R80). -/
def immOf (w : Word) : Word := sext32 (w.extractLsb' 0 16)

/-! ### The decoder (R105) -/

/-- `SUBOP2`: the Category 2 sub-opcodes (R75). UNVERIFIED (assumption 10): the values are the spec's decision D2,
which names general knowledge as its source; unsafe. -/
def subop2 (sub : BitVec 3) : Option AluRegOp :=
  if sub = 0b000#3 then some .add
  else if sub = 0b001#3 then some .sub
  else if sub = 0b010#3 then some .mul
  else if sub = 0b011#3 then some .and
  else if sub = 0b100#3 then some .or
  else if sub = 0b101#3 then some .xor
  else if sub = 0b110#3 then some .nor
  else none

/-- `SUBOP3`: the Category 3 sub-opcodes (R76). UNVERIFIED (assumption 10), as for `subop2`; unsafe. -/
def subop3 (sub : BitVec 3) : Option AluImmOp :=
  if sub = 0b000#3 then some .addi
  else if sub = 0b001#3 then some .andi
  else if sub = 0b010#3 then some .ori
  else if sub = 0b011#3 then some .xori
  else none

/-- The Category 2 instruction of an operation and its registers (R104). -/
def AluRegOp.instr (op : AluRegOp) (rd rs rt : Reg) : Instr :=
  match op with
  | .add => .add rd rs rt
  | .sub => .sub rd rs rt
  | .mul => .mul rd rs rt
  | .and => .and rd rs rt
  | .or => .or rd rs rt
  | .xor => .xor rd rs rt
  | .nor => .nor rd rs rt

/-- The Category 3 instruction of an operation, its registers and its immediate (R104). -/
def AluImmOp.instr (op : AluImmOp) (rt rs : Reg) (imm : Word) : Instr :=
  match op with
  | .addi => .addi rt rs imm
  | .andi => .andi rt rs imm
  | .ori => .ori rt rs imm
  | .xori => .xori rt rs imm

/-- Category 1, major 000 (R74, R105). -/
def decodeCat1 (w : Word) : Option Instr :=
  if sub1Of w = 0b000#3 then some (.j (targetOf w))
  else if sub1Of w = 0b010#3 then some (.beq (rs1Of w) (rt1Of w) (branchOffsetOf w))
  else if sub1Of w = 0b100#3 then some (.bgtz (rs1Of w) (branchOffsetOf w))
  else if sub1Of w = 0b101#3 then some .brk
  else if sub1Of w = 0b110#3 then some (.sw (rt1Of w) (immOf w) (rs1Of w))
  else if sub1Of w = 0b111#3 then some (.lw (rt1Of w) (immOf w) (rs1Of w))
  else none

/-- Category 2, major 110, under a SUBOP2 table (R75, R105). -/
def decodeCat2 (table2 : BitVec 3 → Option AluRegOp) (w : Word) : Option Instr :=
  (table2 (subAluOf w)).map fun op => op.instr (rdOf w) (rsAluOf w) (rtAluOf w)

/-- Category 3, major 111, under a SUBOP3 table (R76, R105). -/
def decodeCat3 (table3 : BitVec 3 → Option AluImmOp) (w : Word) : Option Instr :=
  (table3 (subAluOf w)).map fun op => op.instr (rtAluOf w) (rsAluOf w) (immOf w)

/-- `decode(instr)` of R105 with the two tables as arguments (R5); `none` is UnknownOpcode, the decoder's only
error (R106). -/
def decodeWith (table2 : BitVec 3 → Option AluRegOp) (table3 : BitVec 3 → Option AluImmOp) (w : Word) : Option Instr :=
  if majorOf w = 0b000#3 then decodeCat1 w
  else if majorOf w = 0b110#3 then decodeCat2 table2 w
  else if majorOf w = 0b111#3 then decodeCat3 table3 w
  else none

/-- The decoder with the tables this spec fixes (R105). -/
def decode (w : Word) : Option Instr := decodeWith subop2 subop3 w

/-! ### The byte view (R50) -/

/-- The word of four bytes, the first at the lowest address and most significant (R50). -/
def wordOfBytes (b0 b1 b2 b3 : Byte) : Word := b0 ++ b1 ++ b2 ++ b3

/-- The byte of a word at offset 0 to 3 from the word's address; offset 0 is bits 31:24 (R50). -/
def byteOfWord (w : Word) (offset : Nat) : Byte := w.extractLsb' (24 - 8 * offset) 8

/-- Why bytes do not decode. -/
inductive DecodeError where
  /-- The four bytes are a word with an undefined major or sub-opcode (R82). -/
  | unknownOpcode
  /-- Fewer than four bytes: no instruction word (R70). -/
  | truncated
deriving DecidableEq, Repr

/-- Decode the first instruction of a list of bytes and give back the rest of the list. -/
def decodeBytes : List Byte → Except DecodeError (Instr × List Byte)
  | b0 :: b1 :: b2 :: b3 :: rest =>
    match decode (wordOfBytes b0 b1 b2 b3) with
    | some i => .ok (i, rest)
    | none => .error .unknownOpcode
  | _ => .error .truncated

/-- The instruction the decoder reads from an instruction whose bits are `w`, as spec/opcode_table.json numbers them:
the low `nbits` bits of `w`, every higher bit 0, laid out as four bytes (R70, R50) and decoded. -/
def decodeTableWord (nbits w : Nat) : Option Instr :=
  let word := BitVec.ofNat 32 (w % 2 ^ nbits)
  match decodeBytes [byteOfWord word 0, byteOfWord word 1, byteOfWord word 2, byteOfWord word 3] with
  | .ok (i, _) => some i
  | .error _ => none

/-! ### The encoder (R109) -/

/-- A register index in its 5-bit field. -/
def regBits (r : Reg) : BitVec 5 := BitVec.ofNat 5 r.val

/-- Format C1-J, and C1-N with its unused bits 0 (R72): major 000, sub-opcode, 26 bits. -/
def encodeC1J (sub : BitVec 3) (field26 : BitVec 26) : Word := 0b000#3 ++ sub ++ field26

/-- Format C1-B (R72): major 000, sub-opcode, rs or base, rt, imm16. -/
def encodeC1B (sub : BitVec 3) (rs rt : BitVec 5) (imm16 : BitVec 16) : Word := 0b000#3 ++ sub ++ rs ++ rt ++ imm16

/-- Format C2 (R72) with its unused bits 0: major 110, rs, rt, sub-opcode, rd. -/
def encodeC2 (sub : BitVec 3) (rd rs rt : Reg) : Word :=
  0b110#3 ++ regBits rs ++ regBits rt ++ sub ++ regBits rd ++ 0#11

/-- Format C3 (R72): major 111, rs, rt, sub-opcode, imm16. -/
def encodeC3 (sub : BitVec 3) (rt rs : Reg) (imm : Word) : Word :=
  0b111#3 ++ regBits rs ++ regBits rt ++ sub ++ imm.extractLsb' 0 16

/-- The canonical word of a Decoded Instruction (R109), with the opcodes of R74 to R76. -/
def encode : Instr → Word
  | .j target => encodeC1J 0b000#3 (target.extractLsb' 2 26)
  | .beq rs rt offset => encodeC1B 0b010#3 (regBits rs) (regBits rt) (offset.extractLsb' 2 16)
  | .bgtz rs offset => encodeC1B 0b100#3 (regBits rs) 0#5 (offset.extractLsb' 2 16)
  | .brk => encodeC1J 0b101#3 0#26
  | .sw rt offset base => encodeC1B 0b110#3 (regBits base) (regBits rt) (offset.extractLsb' 0 16)
  | .lw rt offset base => encodeC1B 0b111#3 (regBits base) (regBits rt) (offset.extractLsb' 0 16)
  | .add rd rs rt => encodeC2 0b000#3 rd rs rt
  | .sub rd rs rt => encodeC2 0b001#3 rd rs rt
  | .mul rd rs rt => encodeC2 0b010#3 rd rs rt
  | .and rd rs rt => encodeC2 0b011#3 rd rs rt
  | .or rd rs rt => encodeC2 0b100#3 rd rs rt
  | .xor rd rs rt => encodeC2 0b101#3 rd rs rt
  | .nor rd rs rt => encodeC2 0b110#3 rd rs rt
  | .addi rt rs imm => encodeC3 0b000#3 rt rs imm
  | .andi rt rs imm => encodeC3 0b001#3 rt rs imm
  | .ori rt rs imm => encodeC3 0b010#3 rt rs imm
  | .xori rt rs imm => encodeC3 0b011#3 rt rs imm

/-- The bits of a word that the decoder reads for an instruction of this shape: all but the unused fields of R81. -/
def Instr.usedBits : Instr → Word
  | .j _ => 0xFFFFFFFF#32
  | .beq _ _ _ => 0xFFFFFFFF#32
  | .bgtz _ _ => 0xFFE0FFFF#32
  | .brk => 0xFC000000#32
  | .sw _ _ _ => 0xFFFFFFFF#32
  | .lw _ _ _ => 0xFFFFFFFF#32
  | .add _ _ _ => 0xFFFFF800#32
  | .sub _ _ _ => 0xFFFFF800#32
  | .mul _ _ _ => 0xFFFFF800#32
  | .and _ _ _ => 0xFFFFF800#32
  | .or _ _ _ => 0xFFFFF800#32
  | .xor _ _ _ => 0xFFFFF800#32
  | .nor _ _ _ => 0xFFFFF800#32
  | .addi _ _ _ => 0xFFFFFFFF#32
  | .andi _ _ _ => 0xFFFFFFFF#32
  | .ori _ _ _ => 0xFFFFFFFF#32
  | .xori _ _ _ => 0xFFFFFFFF#32

/-- The hardware tag of a constructor, 0 to 16 (R104). -/
def Instr.tag : Instr → Nat
  | .j _ => 0
  | .beq _ _ _ => 1
  | .bgtz _ _ => 2
  | .brk => 3
  | .sw _ _ _ => 4
  | .lw _ _ _ => 5
  | .add _ _ _ => 6
  | .sub _ _ _ => 7
  | .mul _ _ _ => 8
  | .and _ _ _ => 9
  | .or _ _ _ => 10
  | .xor _ _ _ => 11
  | .nor _ _ _ => 12
  | .addi _ _ _ => 13
  | .andi _ _ _ => 14
  | .ori _ _ _ => 15
  | .xori _ _ _ => 16

/-- The mask of an instruction's row of spec/opcode_table.json: its fixed bits. -/
def Instr.rowMask : Instr → Word
  | .j _ => 0xFC000000#32
  | .beq _ _ _ => 0xFC000000#32
  | .bgtz _ _ => 0xFC000000#32
  | .brk => 0xFC000000#32
  | .sw _ _ _ => 0xFC000000#32
  | .lw _ _ _ => 0xFC000000#32
  | .add _ _ _ => 0xE0070000#32
  | .sub _ _ _ => 0xE0070000#32
  | .mul _ _ _ => 0xE0070000#32
  | .and _ _ _ => 0xE0070000#32
  | .or _ _ _ => 0xE0070000#32
  | .xor _ _ _ => 0xE0070000#32
  | .nor _ _ _ => 0xE0070000#32
  | .addi _ _ _ => 0xE0070000#32
  | .andi _ _ _ => 0xE0070000#32
  | .ori _ _ _ => 0xE0070000#32
  | .xori _ _ _ => 0xE0070000#32

/-- The match value of an instruction's row of spec/opcode_table.json. -/
def Instr.rowMatch : Instr → Word
  | .j _ => 0x00000000#32
  | .beq _ _ _ => 0x08000000#32
  | .bgtz _ _ => 0x10000000#32
  | .brk => 0x14000000#32
  | .sw _ _ _ => 0x18000000#32
  | .lw _ _ _ => 0x1C000000#32
  | .add _ _ _ => 0xC0000000#32
  | .sub _ _ _ => 0xC0010000#32
  | .mul _ _ _ => 0xC0020000#32
  | .and _ _ _ => 0xC0030000#32
  | .or _ _ _ => 0xC0040000#32
  | .xor _ _ _ => 0xC0050000#32
  | .nor _ _ _ => 0xC0060000#32
  | .addi _ _ _ => 0xE0000000#32
  | .andi _ _ _ => 0xE0010000#32
  | .ori _ _ _ => 0xE0020000#32
  | .xori _ _ _ => 0xE0030000#32

end Sys2Proof
end

