-- ==== Sys2Proof/Config.lean ====
section
/-! DEFINITION. What an implementation fixes (00_scope.md R5) and the free values the spec leaves open.
The two sub-opcode tables SUBOP2 and SUBOP3 are parameters too; they stand in Decode.lean, beside the decoder that
takes them as arguments. -/

namespace Sys2Proof

/-- `CODE_BASE`: the address of the first word of a stream and the reset value of pc (R5, R53). -/
def Config.codeBase : Nat := 128

/-- `WORD_STRIDE`: address units per word (R5). -/
def Config.wordStride : Nat := 4

/-- `CYCLE_INIT`: the cycle counter after reset (R5, R35). -/
def Config.cycleInit : Nat := 1

/-- `MAX_WORDS`: the longest loadable stream, (2^32 - 128) / 4 words (R61). -/
def Config.maxWords : Nat := 1073741792

/-- `DMEM_CAPACITY`: the aligned addresses a store can map; the spec's default, every one (R62).
UNVERIFIED (assumption 11): unsafe for an implementation with less storage. -/
def Config.dmemCapacity (_a : Word) : Bool := true

/-- Free value: what the decoder block drives on register-index output `port` (0 = rs or base, 1 = rt, 2 = rd) for
the word on its input, where the decoded constructor has no such field (R111, "unspecified"). Assumption 13. -/
opaque Config.unspecifiedIndex (port : Nat) (w : Word) : BitVec 5

/-- Free value: what the decoder block drives on its operand output where the constructor has none (R111).
Assumption 13. -/
opaque Config.unspecifiedOperand (w : Word) : Word

/-- Free value: what the decoder block drives on its tag output for a word that does not decode.
Assumption 13. -/
opaque Config.unspecifiedTag (w : Word) : BitVec 5

end Sys2Proof
end

