-- ==== Sys2Proof/Machine/State.lean ====
section
/-! DEFINITION. The machine's state as plain data (10_state.md R20), its fault records (60_exceptions.md), the
reasons a step can stop, and the state after reset. -/

namespace Sys2Proof.Machine

/-- A memory: (address, byte) pairs, addresses strictly rising, mapped bytes only; an address that is not listed is
unmapped and has no value (10_state.md R32, R35; assumptions 5 and 6). -/
abbrev Memory := List Host.Cell

/-- The state of the execution state machine (R27). -/
inductive RunState where
  /-- A cycle may be taken. -/
  | running
  /-- BREAK has executed; no further cycles. -/
  | halted
  /-- A fatal error occurred; no further cycles. -/
  | faulted
deriving DecidableEq, Repr

/-- The access kind of an UnmappedAddress fault (R28). -/
inductive Access where
  | fetch | load | store
deriving DecidableEq, Repr

/-- A fault record: the kind and its context (R28, R190 to R197). -/
inductive FaultRecord where
  /-- A line of the textual program that is not 32 characters of 0 and 1: its index and its text (R191). -/
  | malformedWord (index : Nat) (text : List Char)
  /-- A code-mode word that does not decode: its address and itself (R192). -/
  | unknownOpcode (addr word : Word)
  /-- A stream without BREAK: the address just past its last word (R193). -/
  | missingTerminator (addr : Word)
  /-- An address with no backing entry: the access and the address (R194 to R196). -/
  | unmappedAddress (access : Access) (addr : Word)
deriving DecidableEq, Repr

/-- The record a completed cycle emits (R34): address executed, cycle number, the instruction (its mnemonic text is a
projection of it, R108), and the registers and Data Image after the instruction's effect. -/
structure TraceRecord where
  pc : Word
  cycle : Nat
  instr : Instr
  regs : Vector Word 32
  dmem : Memory
deriving DecidableEq, Repr

/-- The complete state (R20), and the records emitted since reset.

* `regs`: the 32 general registers (R21, R22).
* `pc`: the program counter (R23).
* `cycle`: the cycle counter (R26).
* `run`: Running, Halted or Faulted (R27).
* `fault`: the fault record, if any (R28).
* `imem`: the Program Image, as the raw code words (R31; assumption 4).
* `dmem`: the Data Image (R32).
* `codeEnd`: `CODE_END` (R33).
* `trace`: the model's own field, the trace records emitted since reset, newest first (R34; assumption 3). -/
structure State where
  regs : Vector Word 32
  pc : Word
  cycle : Nat
  run : RunState
  fault : Option FaultRecord
  imem : Memory
  dmem : Memory
  codeEnd : Word
  trace : List TraceRecord
deriving DecidableEq, Repr

/-- Why a step stops outside the machine's own Faulted state. The four faults of the spec are no such stops: they are
states of the machine (R200; assumption 7). -/
inductive Fault where
  /-- Raised by the cycle when IMEM holds, at pc, a code word that does not decode. No load produces such a state
  (R47, R110), and the spec gives no effect to it. Safe: the model stops (assumption 7). -/
  | undecodableCode (addr word : Word)
deriving DecidableEq, Repr

/-- What the model gives no meaning to. -/
inductive Refusal where
  /-- Raised by an arm of `exec` for an instruction that has no meaning yet. Safe. No arm raises it now. -/
  | notModelled (mnemonic : String)
  /-- Raised by `resetWith` and `resetWithText` for a stream longer than MAX_WORDS, which is refused before loading
  (R61; assumption 12). Safe. No step raises it. -/
  | streamTooLong
deriving DecidableEq, Repr

/-- The machine right after a reset that presents no word. Registers, pc and cycle are the values of R35. The empty
stream does not load: MissingTerminator(128) (R193, 95_test_vectors.md V7), so the machine is Faulted with that record
and both images are empty (R221; assumption 1). `codeEnd` after a failed load is the model's choice (assumption 2),
and the empty `trace` is the model's own field (assumption 3). `resetWith` of Machine/Load.lean is reset with a stream. -/
def State.reset : State where
  regs := Vector.replicate 32 0#32
  pc := BitVec.ofNat 32 Config.codeBase
  cycle := Config.cycleInit
  run := .faulted
  fault := some (.missingTerminator (BitVec.ofNat 32 Config.codeBase))
  imem := []
  dmem := []
  codeEnd := 0#32
  trace := []

end Sys2Proof.Machine
end

