-- ==== Sys2Proof/Machine/Ops.lean ====
section
/-! DEFINITION. The named operations over registers and memories, instruction fetch, taking a fault and committing a
cycle. There is no return from a fault: none exists in the hardware (60_exceptions.md R201). -/

namespace Sys2Proof.Machine

/-! ### Registers (10_state.md R21) -/

/-- `x[r]`. No register is hard-wired: index 0 is read like every other. -/
def State.reg (s : State) (r : Reg) : Word := s.regs[r.val]

/-- `x[r] <- v`. Writes to index 0 persist. -/
def State.setReg (s : State) (r : Reg) (v : Word) : State := { s with regs := s.regs.set r.val v }

/-! ### Memories (10_state.md R31, R32; 20_memory.md R50) -/

/-- The byte at an address, none where the address is unmapped. -/
def Memory.readByte : Memory → Nat → Option Byte
  | [], _ => none
  | (k, v) :: rest, a => if k = a then some v else Memory.readByte rest a

/-- Set the byte at an address, mapping it if it was unmapped; addresses stay strictly rising. -/
def Memory.writeByte : Memory → Nat → Byte → Memory
  | [], a, b => [(a, b)]
  | (k, v) :: rest, a, b =>
    if a < k then (a, b) :: (k, v) :: rest
    else if a = k then (a, b) :: rest
    else (k, v) :: Memory.writeByte rest a b

/-- The word at an address, none unless all of it is mapped (assumption 17); big-endian (R50). -/
def Memory.readWord (m : Memory) (a : Nat) : Option Word :=
  match Memory.readByte m a, Memory.readByte m (a + 1), Memory.readByte m (a + 2), Memory.readByte m (a + 3) with
  | some b0, some b1, some b2, some b3 => some (wordOfBytes b0 b1 b2 b3)
  | _, _, _, _ => none

/-- Set the word at an address; big-endian (R50). -/
def Memory.writeWord (m : Memory) (a : Nat) (w : Word) : Memory :=
  Memory.writeByte (Memory.writeByte (Memory.writeByte (Memory.writeByte m
    a (byteOfWord w 0)) (a + 1) (byteOfWord w 1)) (a + 2) (byteOfWord w 2)) (a + 3) (byteOfWord w 3)

/-- An address is mapped when it has a value (R32). -/
def Memory.mapped (m : Memory) (a : Nat) : Bool := (Memory.readByte m a).isSome

/-- The canonical form: addresses strictly rising, inside the 32-bit space, and mapped a whole aligned word at a time
("every mapped address is a multiple of 4", "each mapped address holds one 32-bit word", R32). An unlisted address has
no value, so no entry can repeat what an unlisted address reads as. -/
abbrev Memory.wf (m : Memory) : Prop :=
  List.Pairwise (fun c d : Host.Cell => c.1 < d.1) m ∧
  (∀ c ∈ m, c.1 < 4294967296) ∧
  (∀ c ∈ m, ∀ k < 4, Memory.mapped m (c.1 / 4 * 4 + k) = true)

/-- A multiple of 4 (20_memory.md R51). -/
def aligned (a : Word) : Bool := a.toNat % 4 == 0

/-- `MemRead(a, 4)` (20_memory.md R43): the alignment test comes before the mapping test, and both raise
UnmappedAddress(Load, a). -/
def memRead (m : Memory) (a : Word) : Except FaultRecord Word :=
  if aligned a then
    match Memory.readWord m a.toNat with
    | some v => .ok v
    | none => .error (.unmappedAddress .load a)
  else .error (.unmappedAddress .load a)

/-- `MemWrite(a, 4, v)` (20_memory.md R44) for a data memory that can back the addresses of `capacity`. -/
def memWriteIn (capacity : Word → Bool) (m : Memory) (a v : Word) : Except FaultRecord Memory :=
  if aligned a then
    if capacity a then .ok (Memory.writeWord m a.toNat v)
    else .error (.unmappedAddress .store a)
  else .error (.unmappedAddress .store a)

/-- `MemWrite(a, 4, v)` with this machine's DMEM_CAPACITY (R62). -/
def memWrite (m : Memory) (a v : Word) : Except FaultRecord Memory := memWriteIn Config.dmemCapacity m a v

/-! ### Instruction fetch (20_memory.md R42) -/

/-- The addresses a code word can have: 128, 132, ... (20_memory.md R45). -/
def codeAddress (a : Word) : Bool := aligned a && decide (Config.codeBase ≤ a.toNat)

/-- The addresses 128, 132, ..., `CODE_END`. -/
def inCodeRegion (codeEnd a : Word) : Bool := codeAddress a && decide (a.toNat ≤ codeEnd.toNat)

/-- `IFetch(a)`: the code word IMEM holds at `a`, else UnmappedAddress(Fetch, a). The word is decoded by the cycle
(R31, 40_decoder.md R110; assumption 4). -/
def State.ifetch (s : State) (a : Word) : Except FaultRecord Word :=
  if inCodeRegion s.codeEnd a then
    match Memory.readWord s.imem a.toNat with
    | some w => .ok w
    | none => .error (.unmappedAddress .fetch a)
  else .error (.unmappedAddress .fetch a)

/-! ### Taking a fault, committing a cycle -/

/-- Entry to Faulted (60_exceptions.md R200, 45_execute_cycle.md R180): `run` and `fault` change, nothing else does. -/
def State.takeFault (s : State) (f : FaultRecord) : State := { s with run := .faulted, fault := some f }

/-- The end of a cycle that neither halts nor faults (45_execute_cycle.md R176): `pc <- nextPc` and
`cycle <- cycle + 1`, together. -/
def State.commit (s : State) (nextPc : Word) : State := { s with pc := nextPc, cycle := s.cycle + 1 }

/-- The trace record of a cycle that began in `s`, executed `i` and left the registers and the Data Image of `t`
(10_state.md R34, 45_execute_cycle.md R175). -/
def traceRecord (s : State) (i : Instr) (t : State) : TraceRecord where
  pc := s.pc
  cycle := s.cycle
  instr := i
  regs := t.regs
  dmem := t.dmem

/-- Emit a trace record (newest first). -/
def State.emit (s : State) (r : TraceRecord) : State := { s with trace := r :: s.trace }

end Sys2Proof.Machine
end

