-- ==== Sys2Proof/Machine/Operands.lean ====
section
/-! DEFINITION. The operand forms: the fallthrough address, the branch target and the effective address, all sums
modulo 2^32 (10_state.md R24, 20_memory.md R60). Register operands are `State.reg`; immediates come decoded (R104). -/

namespace Sys2Proof.Machine

/-- The fallthrough address `wrap32(pc + 4)`, the default `nextPc` (45_execute_cycle.md R173). -/
def State.fallthrough (s : State) : Word := s.pc + 4#32

/-- The branch target `wrap32(pc + 4 + offset)`: relative to the fallthrough address, not to pc (41_control_transfer.md
R122, R123). -/
def State.branchTarget (s : State) (offset : Word) : Word := s.pc + 4#32 + offset

/-- `ea <- wrap32(unsigned(x[base]) + signed(offset))` (42_load_store.md R130). -/
def State.effectiveAddress (s : State) (base : Reg) (offset : Word) : Word :=
  wrap32 ((s.reg base).toNat + offset.toInt)

end Sys2Proof.Machine
end

