-- ==== Sys2Proof/Machine/AluImmediate.lean ====
section
/-! DEFINITION. Register-immediate ALU: ADDI, ANDI, ORI, XORI (44_alu_immediate.md). rt is the destination, rs the
source, and the immediate is sign-extended for all four (R160, R165). -/

namespace Sys2Proof.Machine

/-- The family's shared effect, `x[rt] <- f(x[rs], imm)`, rs read before rt is written, then pc + 4 (R160). -/
def aluImmediate (f : Word → Word → Word) (rt rs : Reg) (imm : Word) (s : State) : State :=
  (s.setReg rt (f (s.reg rs) imm)).commit s.fallthrough

/-- ADDI (R161). -/
def execAddi (rt rs : Reg) (imm : Word) (s : State) : Host.Outcome State Fault Refusal :=
  .next (aluImmediate aluAdd rt rs imm s)

/-- ANDI (R162). -/
def execAndi (rt rs : Reg) (imm : Word) (s : State) : Host.Outcome State Fault Refusal :=
  .next (aluImmediate aluAnd rt rs imm s)

/-- ORI (R163). -/
def execOri (rt rs : Reg) (imm : Word) (s : State) : Host.Outcome State Fault Refusal :=
  .next (aluImmediate aluOr rt rs imm s)

/-- XORI (R164). -/
def execXori (rt rs : Reg) (imm : Word) (s : State) : Host.Outcome State Fault Refusal :=
  .next (aluImmediate aluXor rt rs imm s)

end Sys2Proof.Machine
end

