-- ==== Sys2Proof/Machine/AluRegister.lean ====
section
/-! DEFINITION. Register-register ALU: ADD, SUB, MUL, AND, OR, XOR, NOR (43_alu_register.md). -/

namespace Sys2Proof.Machine

/-- The family's shared effect, `x[rd] <- f(x[rs], x[rt])`, both sources read before rd is written, then pc + 4
(R140, R151). -/
def aluRegister (f : Word → Word → Word) (rd rs rt : Reg) (s : State) : State :=
  (s.setReg rd (f (s.reg rs) (s.reg rt))).commit s.fallthrough

/-- ADD (R141). -/
def execAdd (rd rs rt : Reg) (s : State) : Host.Outcome State Fault Refusal := .next (aluRegister aluAdd rd rs rt s)

/-- SUB (R142). -/
def execSub (rd rs rt : Reg) (s : State) : Host.Outcome State Fault Refusal := .next (aluRegister aluSub rd rs rt s)

/-- MUL (R143). -/
def execMul (rd rs rt : Reg) (s : State) : Host.Outcome State Fault Refusal := .next (aluRegister aluMul rd rs rt s)

/-- AND (R144). -/
def execAnd (rd rs rt : Reg) (s : State) : Host.Outcome State Fault Refusal := .next (aluRegister aluAnd rd rs rt s)

/-- OR (R145). -/
def execOr (rd rs rt : Reg) (s : State) : Host.Outcome State Fault Refusal := .next (aluRegister aluOr rd rs rt s)

/-- XOR (R146). -/
def execXor (rd rs rt : Reg) (s : State) : Host.Outcome State Fault Refusal := .next (aluRegister aluXor rd rs rt s)

/-- NOR (R147). -/
def execNor (rd rs rt : Reg) (s : State) : Host.Outcome State Fault Refusal := .next (aluRegister aluNor rd rs rt s)

end Sys2Proof.Machine
end

