-- ==== Sys2Proof/Machine/Flags.lean ====
section
/-! DEFINITION. There are no flags and no condition codes (10_state.md R29): no instruction records carry, overflow,
zero or sign. What stands here are the two comparisons that BEQ and BGTZ make on registers directly. -/

namespace Sys2Proof.Machine

/-- `x[rs] = x[rt]`, all 32 bits (41_control_transfer.md R122). -/
def equalCondition (a b : Word) : Bool := a == b

/-- `signed(x[rs]) > 0` (41_control_transfer.md R123). -/
def positiveCondition (a : Word) : Bool := decide (0 < a.toInt)

end Sys2Proof.Machine
end

