-- ==== Sys2Proof/Machine/Control.lean ====
section
/-! DEFINITION. Control transfer: J, BEQ, BGTZ, BREAK (41_control_transfer.md). Each meaning is one cycle's effect and
commit; no target is checked here, a bad one is found by the next fetch (R120). -/

namespace Sys2Proof.Machine

/-- A conditional branch: the target where the condition holds, else the fallthrough address (R122, R123). -/
def branch (taken : Bool) (offset : Word) (s : State) : State :=
  s.commit (if taken then s.branchTarget offset else s.fallthrough)

/-- J: `nextPc <- target`, absolute (R121). -/
def execJ (target : Word) (s : State) : Host.Outcome State Fault Refusal :=
  .next (s.commit target)

/-- BEQ: branch if `x[rs] = x[rt]` (R122). -/
def execBeq (rs rt : Reg) (offset : Word) (s : State) : Host.Outcome State Fault Refusal :=
  .next (branch (equalCondition (s.reg rs) (s.reg rt)) offset s)

/-- BGTZ: branch if `signed(x[rs]) > 0` (R123). -/
def execBgtz (rs : Reg) (offset : Word) (s : State) : Host.Outcome State Fault Refusal :=
  .next (branch (positiveCondition (s.reg rs)) offset s)

/-- BREAK: `run <- Halted`; pc and cycle keep their values, so the cycle does not commit (R124, 45_execute_cycle.md
R177). -/
def execBreak (s : State) : Host.Outcome State Fault Refusal :=
  .next { s with run := .halted }

end Sys2Proof.Machine
end

