-- ==== Sys2Proof/Machine/LoadStore.lean ====
section
/-! DEFINITION. Loads and stores: SW, LW (42_load_store.md). An access that faults takes the fault in this cycle and
changes nothing else (45_execute_cycle.md R180). -/

namespace Sys2Proof.Machine

/-- SW: `MemWrite(ea, 4, x[rt])` (R131). -/
def execSw (rt : Reg) (offset : Word) (base : Reg) (s : State) : Host.Outcome State Fault Refusal :=
  match memWrite s.dmem (s.effectiveAddress base offset) (s.reg rt) with
  | .ok dmem => .next ({ s with dmem := dmem }.commit s.fallthrough)
  | .error f => .next (s.takeFault f)

/-- LW: `x[rt] <- MemRead(ea, 4)`; the base is read before rt is written (R132). -/
def execLw (rt : Reg) (offset : Word) (base : Reg) (s : State) : Host.Outcome State Fault Refusal :=
  match memRead s.dmem (s.effectiveAddress base offset) with
  | .ok v => .next ((s.setReg rt v).commit s.fallthrough)
  | .error f => .next (s.takeFault f)

end Sys2Proof.Machine
end

