-- ==== Sys2Proof/Machine/Dispatch.lean ====
section
/-! DEFINITION. The dispatch on the constructor of the Decoded Instruction (45_execute_cycle.md R174). -/

namespace Sys2Proof.Machine

/-- One arm per constructor and no default arm (R174). -/
def exec (i : Instr) (s : State) : Host.Outcome State Fault Refusal :=
  match i with
  | .j target => Sys2Proof.Machine.execJ target s
  | .beq rs rt offset => Sys2Proof.Machine.execBeq rs rt offset s
  | .bgtz rs offset => Sys2Proof.Machine.execBgtz rs offset s
  | .brk => Sys2Proof.Machine.execBreak s
  | .sw rt offset base => Sys2Proof.Machine.execSw rt offset base s
  | .lw rt offset base => Sys2Proof.Machine.execLw rt offset base s
  | .add rd rs rt => Sys2Proof.Machine.execAdd rd rs rt s
  | .sub rd rs rt => Sys2Proof.Machine.execSub rd rs rt s
  | .mul rd rs rt => Sys2Proof.Machine.execMul rd rs rt s
  | .and rd rs rt => Sys2Proof.Machine.execAnd rd rs rt s
  | .or rd rs rt => Sys2Proof.Machine.execOr rd rs rt s
  | .xor rd rs rt => Sys2Proof.Machine.execXor rd rs rt s
  | .nor rd rs rt => Sys2Proof.Machine.execNor rd rs rt s
  | .addi rt rs imm => Sys2Proof.Machine.execAddi rt rs imm s
  | .andi rt rs imm => Sys2Proof.Machine.execAndi rt rs imm s
  | .ori rt rs imm => Sys2Proof.Machine.execOri rt rs imm s
  | .xori rt rs imm => Sys2Proof.Machine.execXori rt rs imm s

end Sys2Proof.Machine
end

