-- ==== Sys2Proof/Machine/Cycle.lean ====
section
/-! DEFINITION. One cycle of the execution state machine (45_execute_cycle.md R170 to R181). -/

namespace Sys2Proof.Machine

/-- What follows an instruction's effect and commit: a cycle that completes, the BREAK cycle among them, emits its
trace record; a cycle that faults emits none (R175, R180). The record holds the cycle's own pc and cycle number, which
the commit has already moved past in `t`, so it is built from `s` (assumption 16). -/
def finishCycle (s : State) (i : Instr) (outcome : Host.Outcome State Fault Refusal) :
    Host.Outcome State Fault Refusal :=
  match outcome with
  | .next t => .next (if t.run = .faulted then t else t.emit (traceRecord s i t))
  | .fault r => .fault r
  | .refused r => .refused r

/-- One cycle, taken only in Running (R171): fetch, decode, execute, trace. A fetch that faults executes nothing
(R172). -/
def runCycle (s : State) : Host.Outcome State Fault Refusal :=
  match s.ifetch s.pc with
  | .error f => .next (s.takeFault f)
  | .ok w =>
    match decode w with
    | some i => finishCycle s i (exec i s)
    | none => .fault (.undecodableCode s.pc w)

/-- One clock (R170): a cycle while Running; in Halted and Faulted no instruction executes, no trace is emitted, no
state changes (R181; assumption 8). -/
def clock (s : State) : Host.Outcome State Fault Refusal :=
  match s.run with
  | .running => runCycle s
  | .halted => .next s
  | .faulted => .next s

/-- The state with the word `w` in the Program Image where the next fetch looks: at pc where that is an aligned
address of 128 or more, else at 128, to which pc then moves. `CODE_END` is raised to that address where it is below
it, and the machine is Running with no fault. It stands for the load of a program (assumption 1). -/
def State.placeCode (s : State) (w : Word) : State :=
  let a := if codeAddress s.pc then s.pc else BitVec.ofNat 32 Config.codeBase
  { s with
    pc := a
    run := .running
    fault := none
    imem := Memory.writeWord s.imem a.toNat w
    codeEnd := if s.codeEnd.toNat < a.toNat then a else s.codeEnd }

end Sys2Proof.Machine
end

