-- ==== Sys2Proof/Machine/Step.lean ====
section
/-! DEFINITION. The step of the machine, one clock (45_execute_cycle.md R170, R171). -/

namespace Sys2Proof.Machine

/-- One clock of the machine. -/
def step (s : State) : Host.Outcome State Fault Refusal := clock s

/-- The state with the instruction whose low `nbits` bits are those of `w`, the rest 0, stored where `step` fetches
next (assumption 1). -/
def State.withFetchWord (s : State) (nbits w : Nat) : State := s.placeCode (BitVec.ofNat 32 (w % 2 ^ nbits))

end Sys2Proof.Machine
end

