-- ==== Sys2Proof/Machine/Ports.lean ====
section
/-! DEFINITION. The abstract ports: the decoder block's outputs (40_decoder.md R111) and the status outputs
(10_state.md R36, 60_exceptions.md R197), as functions of the decoder's input and of the state. -/

namespace Sys2Proof.Machine

/-- The decoder block's outputs: `dec_ok`, the constructor tag, three register indices and one operand (R111). -/
structure DecoderOutputs where
  ok : Bool
  tag : BitVec 5
  rs : BitVec 5
  rt : BitVec 5
  rd : BitVec 5
  operand : Word
deriving DecidableEq, Repr

/-- The rs (or base) field of a constructor that has one. -/
def rsField : Instr → Option Reg
  | .j _ => none
  | .beq rs _ _ => some rs
  | .bgtz rs _ => some rs
  | .brk => none
  | .sw _ _ base => some base
  | .lw _ _ base => some base
  | .add _ rs _ => some rs
  | .sub _ rs _ => some rs
  | .mul _ rs _ => some rs
  | .and _ rs _ => some rs
  | .or _ rs _ => some rs
  | .xor _ rs _ => some rs
  | .nor _ rs _ => some rs
  | .addi _ rs _ => some rs
  | .andi _ rs _ => some rs
  | .ori _ rs _ => some rs
  | .xori _ rs _ => some rs

/-- The rt field of a constructor that has one. -/
def rtField : Instr → Option Reg
  | .j _ => none
  | .beq _ rt _ => some rt
  | .bgtz _ _ => none
  | .brk => none
  | .sw rt _ _ => some rt
  | .lw rt _ _ => some rt
  | .add _ _ rt => some rt
  | .sub _ _ rt => some rt
  | .mul _ _ rt => some rt
  | .and _ _ rt => some rt
  | .or _ _ rt => some rt
  | .xor _ _ rt => some rt
  | .nor _ _ rt => some rt
  | .addi rt _ _ => some rt
  | .andi rt _ _ => some rt
  | .ori rt _ _ => some rt
  | .xori rt _ _ => some rt

/-- The rd field of a constructor that has one: Category 2. -/
def rdField : Instr → Option Reg
  | .j _ => none
  | .beq _ _ _ => none
  | .bgtz _ _ => none
  | .brk => none
  | .sw _ _ _ => none
  | .lw _ _ _ => none
  | .add rd _ _ => some rd
  | .sub rd _ _ => some rd
  | .mul rd _ _ => some rd
  | .and rd _ _ => some rd
  | .or rd _ _ => some rd
  | .xor rd _ _ => some rd
  | .nor rd _ _ => some rd
  | .addi _ _ _ => none
  | .andi _ _ _ => none
  | .ori _ _ _ => none
  | .xori _ _ _ => none

/-- The target, offset or immediate of a constructor that has one. -/
def operandField : Instr → Option Word
  | .j target => some target
  | .beq _ _ offset => some offset
  | .bgtz _ offset => some offset
  | .brk => none
  | .sw _ offset _ => some offset
  | .lw _ offset _ => some offset
  | .add _ _ _ => none
  | .sub _ _ _ => none
  | .mul _ _ _ => none
  | .and _ _ _ => none
  | .or _ _ _ => none
  | .xor _ _ _ => none
  | .nor _ _ _ => none
  | .addi _ _ imm => some imm
  | .andi _ _ imm => some imm
  | .ori _ _ imm => some imm
  | .xori _ _ imm => some imm

/-- A register-index output: the field, or a free value where the constructor has none (R111; assumption 13). -/
def indexOutput (port : Nat) (w : Word) (field : Option Reg) : BitVec 5 :=
  match field with
  | some r => regBits r
  | none => Config.unspecifiedIndex port w

/-- The decoder block for a word on `dec_word` (R111). Where `dec_ok` is 0 every other output is a free value
(assumption 13). -/
def decoderOutputs (w : Word) : DecoderOutputs :=
  match decode w with
  | some i =>
    { ok := true
      tag := BitVec.ofNat 5 i.tag
      rs := indexOutput 0 w (rsField i)
      rt := indexOutput 1 w (rtField i)
      rd := indexOutput 2 w (rdField i)
      operand := (operandField i).getD (Config.unspecifiedOperand w) }
  | none =>
    { ok := false
      tag := Config.unspecifiedTag w
      rs := indexOutput 0 w none
      rt := indexOutput 1 w none
      rd := indexOutput 2 w none
      operand := Config.unspecifiedOperand w }

/-- `fault_kind` (R197). -/
def faultKind : Option FaultRecord → BitVec 3
  | none => 0#3
  | some (.malformedWord _ _) => 1#3
  | some (.unknownOpcode _ _) => 2#3
  | some (.missingTerminator _) => 3#3
  | some (.unmappedAddress _ _) => 4#3

/-- `fault_access` (R197). -/
def faultAccess : Option FaultRecord → BitVec 2
  | some (.unmappedAddress .fetch _) => 1#2
  | some (.unmappedAddress .load _) => 2#2
  | some (.unmappedAddress .store _) => 3#2
  | some (.malformedWord _ _) => 0#2
  | some (.unknownOpcode _ _) => 0#2
  | some (.missingTerminator _) => 0#2
  | none => 0#2

/-- `fault_addr` (R197): none where no fault is recorded. -/
def faultAddr : Option FaultRecord → Option Word
  | none => none
  | some (.malformedWord index _) => some (BitVec.ofNat 32 (Config.codeBase + Config.wordStride * index))
  | some (.unknownOpcode addr _) => some addr
  | some (.missingTerminator addr) => some addr
  | some (.unmappedAddress _ addr) => some addr

/-- `fault_word` (R197): the offending word of UnknownOpcode, none for every other kind. -/
def faultWord : Option FaultRecord → Option Word
  | none => none
  | some (.malformedWord _ _) => none
  | some (.unknownOpcode _ word) => some word
  | some (.missingTerminator _) => none
  | some (.unmappedAddress _ _) => none

/-- The status outputs of R36: the run state, and the fault record's code, access, address and word. -/
structure StatusOutputs where
  runState : RunState
  kind : BitVec 3
  access : BitVec 2
  addr : Option Word
  word : Option Word
deriving DecidableEq, Repr

/-- The status outputs in a state (R36). -/
def State.status (s : State) : StatusOutputs where
  runState := s.run
  kind := faultKind s.fault
  access := faultAccess s.fault
  addr := faultAddr s.fault
  word := faultWord s.fault

/-- The trace outputs of a clock that took `before` to `after` (R36): `trace_valid` is whether a record was emitted, and
the record carries `trace_pc`, `trace_cycle` and `trace_instr`. -/
def traceOutput (before after : State) : Option TraceRecord :=
  if after.trace.length = before.trace.length + 1 then after.trace.head? else none

end Sys2Proof.Machine
end

