-- ==== Sys2Proof/Machine/Text.lean ====
section
/-! DEFINITION. The mnemonic text of an instruction (30_encoding.md R85): a pure projection of the Decoded Instruction,
which nothing in the hardware reads (40_decoder.md R108). -/

namespace Sys2Proof.Machine

/-- `R<n>`, the index in decimal without padding. -/
def regText (r : Reg) : String := "R" ++ Nat.repr r.val

/-- A 32-bit value in signed decimal. -/
def signedText (v : Word) : String :=
  if v.toInt < 0 then "-" ++ Nat.repr (-v.toInt).toNat else Nat.repr v.toInt.toNat

/-- `BEQ`-like operands after the mnemonic: the parts separated by a comma and one space. -/
def operandsText : List String → String
  | [] => ""
  | [a] => a
  | a :: rest => a ++ ", " ++ operandsText rest

/-- `<M> R<rd>, R<rs>, R<rt>`. -/
def registerText (mnemonic : String) (rd rs rt : Reg) : String :=
  mnemonic ++ " " ++ operandsText [regText rd, regText rs, regText rt]

/-- `<M> R<rt>, R<rs>, #<immediate>`. -/
def immediateText (mnemonic : String) (rt rs : Reg) (imm : Word) : String :=
  mnemonic ++ " " ++ operandsText [regText rt, regText rs, "#" ++ signedText imm]

/-- `<M> R<rt>, <offset>(R<base>)`. -/
def memoryText (mnemonic : String) (rt : Reg) (offset : Word) (base : Reg) : String :=
  mnemonic ++ " " ++ operandsText [regText rt, signedText offset ++ "(" ++ regText base ++ ")"]

/-- The mnemonic text of R85; branch offsets and jump targets are the scaled values. -/
def mnemonicText : Instr → String
  | .j target => "J #" ++ signedText target
  | .beq rs rt offset => "BEQ " ++ operandsText [regText rs, regText rt, "#" ++ signedText offset]
  | .bgtz rs offset => "BGTZ " ++ operandsText [regText rs, "#" ++ signedText offset]
  | .brk => "BREAK"
  | .sw rt offset base => memoryText "SW" rt offset base
  | .lw rt offset base => memoryText "LW" rt offset base
  | .add rd rs rt => registerText "ADD" rd rs rt
  | .sub rd rs rt => registerText "SUB" rd rs rt
  | .mul rd rs rt => registerText "MUL" rd rs rt
  | .and rd rs rt => registerText "AND" rd rs rt
  | .or rd rs rt => registerText "OR" rd rs rt
  | .xor rd rs rt => registerText "XOR" rd rs rt
  | .nor rd rs rt => registerText "NOR" rd rs rt
  | .addi rt rs imm => immediateText "ADDI" rt rs imm
  | .andi rt rs imm => immediateText "ANDI" rt rs imm
  | .ori rt rs imm => immediateText "ORI" rt rs imm
  | .xori rt rs imm => immediateText "XORI" rt rs imm

/-- The mnemonic text a trace record carries (10_state.md R34). -/
def TraceRecord.text (r : TraceRecord) : String := mnemonicText r.instr

end Sys2Proof.Machine
end

