-- ==== Sys2Proof/Machine/Load.lean ====
section
/-! DEFINITION. The loader and reset with a stream (20_memory.md R45 to R49, R61; 60_exceptions.md R191 to R193, R199;
70_reset_and_hazards.md R220, R221). -/

namespace Sys2Proof.Machine

/-- The loader at work: the images so far, and its mode, code mode while no BREAK has been decoded (R46). -/
structure Loading where
  imem : Memory
  dmem : Memory
  codeEnd : Option Word
deriving DecidableEq, Repr

/-- A successful load's result: the two images and `CODE_END` (R46). -/
structure Images where
  imem : Memory
  dmem : Memory
  codeEnd : Word
deriving DecidableEq, Repr

/-- Nothing loaded, code mode (R46). -/
def Loading.start : Loading where
  imem := []
  dmem := []
  codeEnd := none

/-- The address of word `index` of a stream, 128 + 4 × index (R45). -/
def wordAddress (index : Nat) : Word := BitVec.ofNat 32 (Config.codeBase + Config.wordStride * index)

/-- One word of the stream (R46): decoded and appended to the Program Image in code mode, BREAK switching the mode from
the next word on; appended to the Data Image unchanged in data mode (R49). -/
def Loading.take (l : Loading) (index : Nat) (w : Word) : Except FaultRecord Loading :=
  let a := wordAddress index
  match l.codeEnd with
  | some _ => .ok { l with dmem := Memory.writeWord l.dmem a.toNat w }
  | none =>
    match decode w with
    | none => .error (.unknownOpcode a w)
    | some .brk => .ok { l with imem := Memory.writeWord l.imem a.toNat w, codeEnd := some a }
    | some _ => .ok { l with imem := Memory.writeWord l.imem a.toNat w }

/-- After the last word, `count` in all (R46): no BREAK is MissingTerminator (R193). -/
def Loading.finish (l : Loading) (count : Nat) : Except FaultRecord Images :=
  match l.codeEnd with
  | some a => .ok { imem := l.imem, dmem := l.dmem, codeEnd := a }
  | none => .error (.missingTerminator (wordAddress count))

/-- The words from number `index` on, in stream order; the first offending word ends the load (R47). -/
def loadFrom (l : Loading) (index : Nat) : List Word → Except FaultRecord Images
  | [] => l.finish index
  | w :: rest =>
    match l.take index w with
    | .ok l' => loadFrom l' (index + 1) rest
    | .error f => .error f

/-- `load(w[0..n-1])` (R46). -/
def load (words : List Word) : Except FaultRecord Images := loadFrom Loading.start 0 words

/-! ### The text boundary (R45, R191) -/

/-- A character of a textual word. -/
def bitOfChar (c : Char) : Option Bool :=
  if c = '0' then some false else if c = '1' then some true else none

/-- The number a list of bits writes, most significant first, after `acc`. -/
def bitsValue (acc : Nat) : List Char → Option Nat
  | [] => some acc
  | c :: rest =>
    match bitOfChar c with
    | some b => bitsValue (2 * acc + b.toNat) rest
    | none => none

/-- A line of the program as a word: exactly 32 characters of 0 and 1, the first the most significant bit (R6, R45). -/
def parseLine (line : List Char) : Option Word :=
  if line.length = 32 then (bitsValue 0 line).map (BitVec.ofNat 32) else none

/-- The text of a word, character 0 first (R7). -/
def lineOfWord (w : Word) : List Char :=
  (List.range 32).map fun i => if w.getLsbD (31 - i) then '1' else '0'

/-- The lines from number `index` on, in file order: each is made a word, MalformedWord where it is none, and the word
goes to the loader; the first offending line ends the load (R191, R199; assumption 14). -/
def loadTextFrom (l : Loading) (index : Nat) : List (List Char) → Except FaultRecord Images
  | [] => l.finish index
  | line :: rest =>
    match parseLine line with
    | none => .error (.malformedWord index line)
    | some w =>
      match l.take index w with
      | .ok l' => loadTextFrom l' (index + 1) rest
      | .error f => .error f

/-- The load of a textual program (R45, R46). -/
def loadText (lines : List (List Char)) : Except FaultRecord Images := loadTextFrom Loading.start 0 lines

/-! ### Reset (R35, R220, R221) -/

/-- The state after reset, from what the load gave: the images and Running, or the load's fault and Faulted with both
images empty. -/
def State.ofLoad (result : Except FaultRecord Images) : State :=
  match result with
  | .ok images =>
    { State.reset with
      run := .running, fault := none, imem := images.imem, dmem := images.dmem, codeEnd := images.codeEnd }
  | .error f => State.reset.takeFault f

/-- Reset with a stream of words: a stream too long is refused before loading (R61). -/
def resetWith (words : List Word) : Host.Outcome State Fault Refusal :=
  if Config.maxWords < words.length then .refused .streamTooLong else .next (State.ofLoad (load words))

/-- Reset with a textual program. -/
def resetWithText (lines : List (List Char)) : Host.Outcome State Fault Refusal :=
  if Config.maxWords < lines.length then .refused .streamTooLong else .next (State.ofLoad (loadText lines))

end Sys2Proof.Machine
end

