-- ==== Sys2Proof/Safety.lean ====
section
/-! DEFINITION. What counts as a safe state and a safe run, in the terms the statements use: the machine's invariants
(10_state.md R37, 45_execute_cycle.md R175, R182) and the terms of the frames (10_state.md R21, R24). -/

namespace Sys2Proof.Machine

/-! ### Frames -/

/-- The general register an instruction writes (R21: rd of Category 2, rt of Category 3 and of LW). -/
def destReg : Instr → Option Reg
  | .j _ => none
  | .beq _ _ _ => none
  | .bgtz _ _ => none
  | .brk => none
  | .sw _ _ _ => none
  | .lw rt _ _ => some rt
  | .add rd _ _ => some rd
  | .sub rd _ _ => some rd
  | .mul rd _ _ => some rd
  | .and rd _ _ => some rd
  | .or rd _ _ => some rd
  | .xor rd _ _ => some rd
  | .nor rd _ _ => some rd
  | .addi rt _ _ => some rt
  | .andi rt _ _ => some rt
  | .ori rt _ _ => some rt
  | .xori rt _ _ => some rt

/-- The address of the word an instruction stores to, by the function its meaning uses: SW alone stores (R131). -/
def storeAddress (i : Instr) (s : State) : Option Word :=
  match i with
  | .sw _ offset base => some (s.effectiveAddress base offset)
  | .j _ => none
  | .beq _ _ _ => none
  | .bgtz _ _ => none
  | .brk => none
  | .lw _ _ _ => none
  | .add _ _ _ => none
  | .sub _ _ _ => none
  | .mul _ _ _ => none
  | .and _ _ _ => none
  | .or _ _ _ => none
  | .xor _ _ _ => none
  | .nor _ _ _ => none
  | .addi _ _ _ => none
  | .andi _ _ _ => none
  | .ori _ _ _ => none
  | .xori _ _ _ => none

/-- Register `d` of `t` holds `v`, every other register, both memories and the run state are those of `s`, and the cycle
has committed with the fallthrough address (R140, R160, R176). -/
def registerWritten (s t : State) (d : Reg) (v : Word) : Prop :=
  t.reg d = v ∧ (∀ r, r ≠ d → t.reg r = s.reg r) ∧
  t.pc = s.pc + 4#32 ∧ t.cycle = s.cycle + 1 ∧ t.run = s.run ∧ t.fault = s.fault ∧
  t.imem = s.imem ∧ t.dmem = s.dmem ∧ t.codeEnd = s.codeEnd ∧ t.trace = s.trace

/-! ### Streams -/

/-- Word `w` of a stream is an instruction other than BREAK. -/
def plainCode (w : Word) : Prop := ∃ i, decode w = some i ∧ i ≠ .brk

/-- Position `k` is the first word of the stream that decodes to BREAK, and every word before it decodes (R48). -/
def firstBreakAt (words : List Word) (k : Nat) : Prop :=
  (∃ w, words[k]? = some w ∧ decode w = some .brk) ∧
  ∀ j w, j < k → words[j]? = some w → plainCode w

/-! ### Invariants -/

/-- The Program Image of a successful load (R37 (b), (c)): its words are exactly those at 128, 132, ..., `CODE_END`, each
decodes, and the one at `CODE_END` and no other is BREAK. -/
def State.codeRegionOk (s : State) : Prop :=
  128 ≤ s.codeEnd.toNat ∧ s.codeEnd.toNat % 4 = 0 ∧
  (∀ a : Word, a.toNat % 4 = 0 →
    ((Memory.readWord s.imem a.toNat).isSome = true ↔ 128 ≤ a.toNat ∧ a.toNat ≤ s.codeEnd.toNat)) ∧
  (∀ a w : Word, a.toNat % 4 = 0 → Memory.readWord s.imem a.toNat = some w →
    ∃ i, decode w = some i ∧ (i = .brk ↔ a = s.codeEnd))

/-- Either a failed load left no Program Image and a Faulted machine (R221), or the image is a loaded one (R37). -/
def State.imageOk (s : State) : Prop :=
  (s.imem = [] ∧ s.run = .faulted) ∨ s.codeRegionOk

/-- A fault is recorded exactly in Faulted (R28), and Halted stands at `CODE_END` (R182). -/
def State.runOk (s : State) : Prop :=
  (s.run = .faulted ↔ s.fault.isSome = true) ∧ (s.run = .halted → s.pc = s.codeEnd)

/-- The records emitted are numbered 1, 2, ... (R175; `trace` holds the newest first), and `cycle` is the number of the
next record, or in Halted of the last (R26). -/
def State.traceOk (s : State) : Prop :=
  s.trace.map (fun r => r.cycle) = (List.range' 1 s.trace.length).reverse ∧
  s.cycle = s.trace.length + (if s.run = .halted then 0 else 1) ∧ 1 ≤ s.cycle

/-- The invariant of the machine: both memories in canonical form (R37 (a)), the Program Image (R37 (b), (c)), pc a
multiple of 4 (R37 (d), R25), the run state and the trace. -/
def State.Inv (s : State) : Prop :=
  Memory.wf s.imem ∧ Memory.wf s.dmem ∧ s.imageOk ∧ s.pc.toNat % 4 = 0 ∧ s.runOk ∧ s.traceOk

end Sys2Proof.Machine
end

