-- ==== Sys2Proof/Certificates/Slice0/Obligations.lean ====
section
/-! DEFINITION. The statements for the provers, from the numbered rules of spec/. -/

open Sys2Proof Sys2Proof.Machine

/-! ### Encoding -/

/-- Words of 95_test_vectors.md V2, one for each constructor and one illegal word for each row of R82. -/
def Obligations.SpecWordsDecode : Prop :=
  decode 0x00000021#32 = some (.j 132#32) ∧
  decode 0x0800FFFF#32 = some (.beq 0 0 (-4)) ∧
  decode 0x10A0FFFD#32 = some (.bgtz 5 (-12)) ∧
  decode 0x14000000#32 = some .brk ∧
  decode 0x18C5FFFC#32 = some (.sw 5 (-4) 6) ∧
  decode 0x1C018000#32 = some (.lw 1 (-32768) 0) ∧
  decode 0xDEE8F800#32 = some (.add 31 30 29) ∧
  decode 0xC2190800#32 = some (.sub 1 2 3) ∧
  decode 0xC21A0800#32 = some (.mul 1 2 3) ∧
  decode 0xC21B0800#32 = some (.and 1 2 3) ∧
  decode 0xC21C0800#32 = some (.or 1 2 3) ∧
  decode 0xC21D0800#32 = some (.xor 1 2 3) ∧
  decode 0xC21E0800#32 = some (.nor 1 2 3) ∧
  decode 0xE0080005#32 = some (.addi 1 0 5) ∧
  decode 0xE11100FF#32 = some (.andi 2 1 255) ∧
  decode 0xE112FF00#32 = some (.ori 2 1 (-256)) ∧
  decode 0xE113FFFF#32 = some (.xori 2 1 (-1)) ∧
  decode 0x05000000#32 = none ∧ decode 0x20000000#32 = none ∧
  decode 0xC0070000#32 = none ∧ decode 0xE0040000#32 = none

/-- The list of R82: a word does not decode exactly when its major opcode, or the sub-opcode of its category, has no
mapping. -/
def Obligations.IllegalWordsAreExactlyTheListed : Prop :=
  ∀ w : Word, decode w = none ↔
    (w.extractLsb' 29 3 ∈ [0b001#3, 0b010#3, 0b011#3, 0b100#3, 0b101#3]) ∨
    (w.extractLsb' 29 3 = 0b000#3 ∧ w.extractLsb' 26 3 ∈ [0b001#3, 0b011#3]) ∨
    (w.extractLsb' 29 3 = 0b110#3 ∧ w.extractLsb' 16 3 = 0b111#3) ∨
    (w.extractLsb' 29 3 = 0b111#3 ∧ w.extractLsb' 16 3 ∈ [0b100#3, 0b101#3, 0b110#3, 0b111#3])

/-- R109: for every Decoded Instruction within the ranges of R104, decode (encode d) = d; for every legal word, encode of
what it decodes to is the word with its unused bits cleared. The spec marks R109 as derived from R105, R72 and R81. -/
def Obligations.EncodeAndDecodeAreInverse : Prop :=
  (∀ i : Instr, i.wellFormed = true → decode (encode i) = some i) ∧
  (∀ (w : Word) (i : Instr), decode w = some i → encode i = w &&& i.usedBits)

/-- The ranges of R104's table hold of everything the decoder produces. -/
def Obligations.DecodedOperandsAreInRange : Prop :=
  ∀ (w : Word) (i : Instr), decode w = some i → i.wellFormed = true

/-- R81: words that agree on the bits the decoder reads decode alike, whatever stands in the unused bits; the canonical
encoding has every unused bit 0. -/
def Obligations.UnusedBitsAreIgnored : Prop :=
  (∀ (w w' : Word) (i : Instr), decode w = some i → w' &&& i.usedBits = w &&& i.usedBits → decode w' = some i) ∧
  (∀ i : Instr, encode i &&& ~~~i.usedBits = 0#32) ∧
  Instr.brk.usedBits = ~~~0x03FFFFFF#32 ∧
  (∀ (rs : Reg) (offset : Word), (Instr.bgtz rs offset).usedBits = ~~~0x001F0000#32) ∧
  (∀ (op : AluRegOp) (rd rs rt : Reg), (op.instr rd rs rt).usedBits = ~~~0x000007FF#32)

/-- R103: the procedure of R102 gives the two's-complement value of a bit string of any nonzero length; as a 32-bit value
it is sext_32; and it inverts the encoding of every n-bit value. The spec marks R103 as derived from R102. -/
def Obligations.SignedValueIsTwosComplement : Prop :=
  (∀ (n : Nat) (bits : BitVec (n + 1)), signedValue bits = bits.toInt) ∧
  (∀ (n : Nat) (bits : BitVec (n + 1)), n < 32 → wrap32 (signedValue bits) = sext32 bits) ∧
  (∀ (n : Nat) (v : Int), -2 ^ n ≤ v → v ≤ 2 ^ n - 1 → signedValue (BitVec.ofInt (n + 1) v) = v)

/-- The byte view is big-endian (R50): four bytes, most significant first, decode as the word they make, and what follows
them is left over; fewer than four bytes are no instruction. -/
def Obligations.BytesDecodeAsTheirWord : Prop :=
  (∀ (w : Word) (rest : List Byte),
    decodeBytes (w.extractLsb' 24 8 :: w.extractLsb' 16 8 :: w.extractLsb' 8 8 :: w.extractLsb' 0 8 :: rest) =
      match decode w with
      | some i => .ok (i, rest)
      | none => .error .unknownOpcode) ∧
  (∀ bytes : List Byte, bytes.length < 4 → decodeBytes bytes = .error .truncated) ∧
  (∀ w : Nat, decodeTableWord 32 w = decode (BitVec.ofNat 32 w))

/-- The tags of R104 and the decoder block's outputs of R111 where the spec fixes them. -/
def Obligations.DecoderBlockOutputs : Prop :=
  (∀ w : Word, (decoderOutputs w).ok = false ↔ decode w = none) ∧
  (∀ (w : Word) (i : Instr), decode w = some i →
    (decoderOutputs w).tag.toNat = i.tag ∧
    (∀ r, rsField i = some r → (decoderOutputs w).rs.toNat = r.val) ∧
    (∀ r, rtField i = some r → (decoderOutputs w).rt.toNat = r.val) ∧
    (∀ r, rdField i = some r → (decoderOutputs w).rd.toNat = r.val) ∧
    (∀ v, operandField i = some v → (decoderOutputs w).operand = v))

/-- The examples of R85's table. -/
def Obligations.MnemonicTextOfTheExamples : Prop :=
  (decode 0x00000021#32).map mnemonicText = some "J #132" ∧
  (decode 0x08220002#32).map mnemonicText = some "BEQ R1, R2, #8" ∧
  (decode 0x10A0FFFD#32).map mnemonicText = some "BGTZ R5, #-12" ∧
  (decode 0x14000000#32).map mnemonicText = some "BREAK" ∧
  (decode 0x18620000#32).map mnemonicText = some "SW R2, 0(R3)" ∧
  (decode 0x1C640000#32).map mnemonicText = some "LW R4, 0(R3)" ∧
  (decode 0xC2180800#32).map mnemonicText = some "ADD R1, R2, R3" ∧
  (decode 0xE0080005#32).map mnemonicText = some "ADDI R1, R0, #5"

/-! ### Loading and reset -/

/-- R48: a stream whose first BREAK is at position k, all words before it legal, gives a Program Image of the words up to
k and a Data Image of the rest, at 128, 132, ..., each word at its own address and nothing else mapped. That k is the
first word that decodes to BREAK the spec marks as derived from R46. -/
def Obligations.LoadPlacesTheStream : Prop :=
  ∀ (words : List Word) (k : Nat), words.length ≤ 1073741792 → firstBreakAt words k →
    ∃ images, load words = .ok images ∧
      images.codeEnd.toNat = 128 + 4 * k ∧
      (∀ n w, words[n]? = some w → n ≤ k → Memory.readWord images.imem (128 + 4 * n) = some w) ∧
      (∀ n w, words[n]? = some w → k < n → Memory.readWord images.dmem (128 + 4 * n) = some w) ∧
      (∀ a, Memory.mapped images.imem a = true ↔ 128 ≤ a ∧ a < 128 + 4 * (k + 1)) ∧
      (∀ a, Memory.mapped images.dmem a = true ↔ 128 + 4 * (k + 1) ≤ a ∧ a < 128 + 4 * words.length)

/-- R47 and R193: the first undecodable code-mode word ends the load; a stream without BREAK ends it after the last word;
a stream that faults yields no images and no run; illegal patterns after the BREAK are no failure. The addresses are
taken modulo 2^32 (R5), which shows only in the record of the longest streams (assumption 15). -/
def Obligations.LoadFailsAsTheRulesSay : Prop :=
  (∀ (words : List Word) (j : Nat) (w : Word), words[j]? = some w → decode w = none →
    (∀ n v, n < j → words[n]? = some v → plainCode v) →
    load words = .error (.unknownOpcode (BitVec.ofNat 32 (128 + 4 * j)) w)) ∧
  (∀ words : List Word, (∀ w ∈ words, plainCode w) →
    load words = .error (.missingTerminator (BitVec.ofNat 32 (128 + 4 * words.length)))) ∧
  (∀ (words : List Word) (k : Nat), firstBreakAt words k → ∃ images, load words = .ok images) ∧
  (∀ (words : List Word) (f : FaultRecord), words.length ≤ 1073741792 → load words = .error f →
    ∃ s, resetWith words = .next s ∧ s.run = .faulted ∧ s.fault = some f ∧ s.imem = [] ∧ s.dmem = [])

/-- R220: reset performs the load and sets every piece of state; with the same stream it gives the same state. -/
def Obligations.ResetAfterSuccessfulLoad : Prop :=
  ∀ (words : List Word) (images : Images), words.length ≤ 1073741792 → load words = .ok images →
    ∃ s, resetWith words = .next s ∧
      (∀ r, s.reg r = 0#32) ∧ s.pc = 128#32 ∧ s.cycle = 1 ∧ s.run = .running ∧ s.fault = none ∧
      s.imem = images.imem ∧ s.dmem = images.dmem ∧ s.codeEnd = images.codeEnd

/-- R221: a load that fails ends reset in Faulted with its fault recorded, registers 0, pc 128, cycle 1 and both images
empty; no cycle executes and no trace record is emitted. -/
def Obligations.ResetAfterFailedLoad : Prop :=
  ∀ (words : List Word) (f : FaultRecord), words.length ≤ 1073741792 → load words = .error f →
    ∃ s, resetWith words = .next s ∧
      s.run = .faulted ∧ s.fault = some f ∧ (∀ r, s.reg r = 0#32) ∧ s.pc = 128#32 ∧ s.cycle = 1 ∧
      s.imem = [] ∧ s.dmem = [] ∧ s.trace = [] ∧ step s = .next s

/-- R61: a stream of at most (2^32 - 128) / 4 words is loaded, a longer one is refused before loading, presented as
words or as text. -/
def Obligations.LongerStreamIsRefused : Prop :=
  (∀ words : List Word,
    (words.length ≤ (2 ^ 32 - 128) / 4 → ∃ s, resetWith words = .next s) ∧
    ((2 ^ 32 - 128) / 4 < words.length → resetWith words = .refused .streamTooLong)) ∧
  (∀ lines : List (List Char),
    (lines.length ≤ (2 ^ 32 - 128) / 4 → ∃ s, resetWithText lines = .next s) ∧
    ((2 ^ 32 - 128) / 4 < lines.length → resetWithText lines = .refused .streamTooLong))

/-- The model's reset state is the reset of the empty stream (assumption 1), which does not load (R193). Its `codeEnd`
and its `trace` are the model's choices (assumptions 2 and 3); the statement names neither. -/
def Obligations.ResetStateIsTheEmptyStreams : Prop :=
  resetWith [] = .next State.reset ∧
  State.reset.run = .faulted ∧ State.reset.fault = some (.missingTerminator 128#32) ∧
  (∀ r, State.reset.reg r = 0#32) ∧ State.reset.pc = 128#32 ∧ State.reset.cycle = 1 ∧
  (∀ a, Memory.mapped State.reset.imem a = false) ∧ (∀ a, Memory.mapped State.reset.dmem a = false)

/-- A textual program whose every line is the text of a word loads and resets as its words (R45). -/
def Obligations.TextLoadsAsItsWords : Prop :=
  ∀ words : List Word, loadText (words.map lineOfWord) = load words ∧
    resetWithText (words.map lineOfWord) = resetWith words

/-- R191: a line is malformed when its length is not 32 or it holds a character that is not binary; the first such line
ends the load with its index and text, if no word before it raised UnknownOpcode; a 32-bit word is never malformed. -/
def Obligations.MalformedLineEndsTheLoad : Prop :=
  (∀ line : List Char, parseLine line = none ↔ line.length ≠ 32 ∨ ∃ c ∈ line, c ≠ '0' ∧ c ≠ '1') ∧
  (∀ w : Word, parseLine (lineOfWord w) = some w) ∧
  (∀ (before : List Word) (line : List Char) (after : List (List Char)),
    (∀ a w, load before ≠ .error (.unknownOpcode a w)) → parseLine line = none →
    loadText (before.map lineOfWord ++ line :: after) = .error (.malformedWord before.length line)) ∧
  (∀ (words : List Word) (n : Nat) (text : List Char), load words ≠ .error (.malformedWord n text))

/-! ### The step -/

/-- R171, R172: where IMEM holds at pc, inside the code region, a word that decodes to an instruction, a step in Running
is that instruction executed, and the trace record where the cycle did not fault. -/
def Obligations.StepRunsTheDecodedInstruction : Prop :=
  ∀ (s t : State) (w : Word) (i : Instr),
    s.run = .running → s.pc.toNat % 4 = 0 → 128 ≤ s.pc.toNat → s.pc.toNat ≤ s.codeEnd.toNat →
    Memory.readWord s.imem s.pc.toNat = some w → decode w = some i → exec i s = .next t →
    (t.run ≠ .faulted → step s = .next { t with trace :=
      { pc := s.pc, cycle := s.cycle, instr := i, regs := t.regs, dmem := t.dmem } :: t.trace }) ∧
    (t.run = .faulted → step s = .next t)

/-- R42, R194: a fetch outside 128 ... CODE_END, or at an address that is no multiple of 4, faults the cycle, which does
nothing else. -/
def Obligations.FetchOutsideTheCodeRegionFaults : Prop :=
  ∀ s : State, s.run = .running →
    (s.pc.toNat % 4 ≠ 0 ∨ s.pc.toNat < 128 ∨ s.codeEnd.toNat < s.pc.toNat) →
    step s = .next { s with run := .faulted, fault := some (.unmappedAddress .fetch s.pc) }

/-- R181: Halted and Faulted have no step. -/
def Obligations.HaltedAndFaultedHaveNoStep : Prop :=
  ∀ s : State, s.run = .halted ∨ s.run = .faulted → step s = .next s

/-- R180: a faulting cycle changes nothing but `run` and `fault`; the record is an UnmappedAddress, raised at the fetch
with pc's own value, or inside the access of the LW or SW that stands at pc. -/
def Obligations.FaultingCycleChangesOnlyRunAndFault : Prop :=
  ∀ s t : State, s.run = .running → step s = .next t → t.run = .faulted →
    ∃ access a, t = { s with run := .faulted, fault := some (.unmappedAddress access a) } ∧
      (access = .fetch → a = s.pc) ∧
      (access = .load → ∃ w rt offset base, Memory.readWord s.imem s.pc.toNat = some w ∧
        decode w = some (.lw rt offset base) ∧ memRead s.dmem a = .error (.unmappedAddress .load a) ∧
        a = s.reg base + offset) ∧
      (access = .store → ∃ w rt offset base, Memory.readWord s.imem s.pc.toNat = some w ∧
        decode w = some (.sw rt offset base) ∧ memWrite s.dmem a (s.reg rt) = .error (.unmappedAddress .store a) ∧
        a = s.reg base + offset)

/-- R34: a cycle that completes, the BREAK cycle among them, emits one record with the cycle's own pc, number and
instruction and the registers and Data Image after it; a cycle that faults emits none. -/
def Obligations.CompletedCycleEmitsOneRecord : Prop :=
  ∀ s t : State, s.run = .running → step s = .next t →
    (t.run ≠ .faulted → ∃ w i, Memory.readWord s.imem s.pc.toNat = some w ∧ decode w = some i ∧
      t.trace = { pc := s.pc, cycle := s.cycle, instr := i, regs := t.regs, dmem := t.dmem } :: s.trace) ∧
    (t.run = .faulted → t.trace = s.trace)

/-- R58: no instruction writes the Program Image or CODE_END, so no store is ever seen by a fetch. -/
def Obligations.StoresNeverReachTheFetch : Prop :=
  (∀ (i : Instr) (s t : State), exec i s = .next t →
    t.imem = s.imem ∧ t.codeEnd = s.codeEnd ∧ ∀ a, t.ifetch a = s.ifetch a) ∧
  (∀ s t : State, step s = .next t → t.imem = s.imem ∧ t.codeEnd = s.codeEnd)

/-- R27, R177: only BREAK takes a running machine to Halted, and the BREAK cycle keeps pc and cycle. -/
def Obligations.OnlyBreakHalts : Prop :=
  ∀ (i : Instr) (s t : State), s.run = .running → exec i s = .next t →
    (t.run = .halted ↔ i = .brk) ∧ (t.run = .halted → t.pc = s.pc ∧ t.cycle = s.cycle)

/-- Every instruction answers a next state in every state (R203: it may be executed at any time): no meaning stops or
refuses. -/
def Obligations.EveryInstructionAnswersANextState : Prop :=
  ∀ (i : Instr) (s : State), ∃ t, exec i s = .next t

/-- The trace records are observation only: what a step does besides emitting does not depend on the records before it
(R30, R34; the field is the model's own, assumption 3). -/
def Obligations.TraceIsObservationOnly : Prop :=
  ∀ (s t : State) (other : List TraceRecord), step s = .next t →
    ∃ new, t.trace = new ++ s.trace ∧
      step { s with trace := other } = .next { t with trace := new ++ other }

/-- The contents of DMEM reach the rest of the machine only through LW (R41, R52): any other instruction does the same to
everything but DMEM whatever DMEM holds. -/
def Obligations.DataImageReachesOnlyLoads : Prop :=
  ∀ (i : Instr) (s t : State) (other : Memory), (∀ rt offset base, i ≠ .lw rt offset base) →
    exec i s = .next t → ∃ d, exec i { s with dmem := other } = .next { t with dmem := d }

/-- `withFetchWord` places an instruction so that the very next step runs it (assumption 1; the model's own helper for the
host). -/
def Obligations.PlacedWordIsTheNextRun : Prop :=
  ∀ (s t : State) (nbits w : Nat) (i : Instr), decodeTableWord nbits w = some i →
    exec i (s.withFetchWord nbits w) = .next t →
    step (s.withFetchWord nbits w) =
      .next (if t.run = .faulted then t else t.emit (traceRecord (s.withFetchWord nbits w) i t))

/-! ### Invariants and whole runs -/

/-- The invariant holds at the model's reset state. -/
def Obligations.ResetSatisfiesInv : Prop := State.reset.Inv

/-- Every step keeps the invariant. -/
def Obligations.StepKeepsInv : Prop := ∀ s t : State, s.Inv → step s = .next t → t.Inv

/-- Reset with any stream that is not too long gives a state that satisfies the invariant. -/
def Obligations.LoadedMachineSatisfiesInv : Prop :=
  ∀ (words : List Word) (s : State), resetWith words = .next s → s.Inv

/-- From a state that satisfies the invariant a step always answers a next state. -/
def Obligations.StepNeverStopsUnderInv : Prop := ∀ s : State, s.Inv → ∃ t, step s = .next t

/-- R37 and R182: in every state reached from a reset whose load succeeded, every mapped address belongs to a wholly
mapped word at a multiple of 4; IMEM is {128, 132, ..., CODE_END} and never changes; IMEM[CODE_END] is BREAK and no other
entry is; pc is a multiple of 4; cycle is at least 1; and Halted means pc = CODE_END. At the reset itself the images are
disjoint and the Data Image, where there is any, begins 4 bytes after CODE_END. The spec marks R182, which gives the
clause on Halted, as derived from R37 and R172, and R25, which R37 (d) names, as derived from R35, R24, R77 and R78. -/
def Obligations.ReachedStatesSatisfyTheInvariants : Prop :=
  ∀ (words : List Word) (images : Images) (s0 s : State) (n : Nat),
    load words = .ok images → resetWith words = .next s0 → Host.Core.run Sys2Proof.core n s0 = .next s →
    (∀ a, Memory.mapped s.imem a = true → ∀ k, k < 4 → Memory.mapped s.imem (a / 4 * 4 + k) = true) ∧
    (∀ a, Memory.mapped s.dmem a = true → ∀ k, k < 4 → Memory.mapped s.dmem (a / 4 * 4 + k) = true) ∧
    (∀ a, a % 4 = 0 → (Memory.mapped s.imem a = true ↔ 128 ≤ a ∧ a ≤ s.codeEnd.toNat)) ∧
    128 ≤ s.codeEnd.toNat ∧ s.codeEnd.toNat % 4 = 0 ∧ s.imem = s0.imem ∧ s.codeEnd = s0.codeEnd ∧
    (∀ a w, a % 4 = 0 → Memory.readWord s.imem a = some w → (decode w = some .brk ↔ a = s.codeEnd.toNat)) ∧
    s.pc.toNat % 4 = 0 ∧ 1 ≤ s.cycle ∧ (s.run = .halted → s.pc = s.codeEnd) ∧
    (∀ a, Memory.mapped s0.dmem a = true → Memory.mapped s0.imem a = false ∧ s0.codeEnd.toNat + 4 ≤ a ∧
      Memory.mapped s0.dmem (s0.codeEnd.toNat + 4) = true)

/-- R175, R225: in a run from any reset the records are numbered 1, 2, ... in the order emitted; while the machine is
Running after n clocks it has emitted n records and stands in cycle n + 1. -/
def Obligations.RunEmitsRecordsNumberedFromOne : Prop :=
  ∀ (words : List Word) (s0 s : State) (n : Nat),
    resetWith words = .next s0 → Host.Core.run Sys2Proof.core n s0 = .next s →
    s.trace.reverse.map (fun r => r.cycle) = List.range' 1 s.trace.length ∧
    (s.run = .running → s.trace.length = n ∧ s.cycle = n + 1) ∧
    (s.run = .halted → s.trace.length = s.cycle)

/-- R182, R194: in a state that satisfies the invariant, an instruction other than J, BEQ, BGTZ and BREAK that completes
leaves pc inside the code region: falling through past CODE_END is impossible. The spec marks R182 as derived from R37
and R172. -/
def Obligations.FallthroughStaysInTheCodeRegion : Prop :=
  ∀ (s t : State) (w : Word) (i : Instr), s.Inv → s.run = .running →
    Memory.readWord s.imem s.pc.toNat = some w → decode w = some i →
    (∀ target, i ≠ .j target) → (∀ rs rt offset, i ≠ .beq rs rt offset) → (∀ rs offset, i ≠ .bgtz rs offset) →
    i ≠ .brk → step s = .next t → t.run ≠ .faulted →
    t.pc.toNat = s.pc.toNat + 4 ∧ 128 ≤ t.pc.toNat ∧ t.pc.toNat ≤ t.codeEnd.toNat

/-! ### Control transfer -/

/-- R121: the words of J; its target, absolute, 0 to 0x0FFFFFFC; its effect, in every state. -/
def Obligations.JumpRule : Prop :=
  (∀ w : Word, w &&& 0xFC000000#32 = 0x00000000#32 ↔ decode w = some (.j (BitVec.ofNat 32 (4 * (w.toNat % 2 ^ 26))))) ∧
  (∀ (target : Word) (s : State), exec (.j target) s = .next { s with pc := target, cycle := s.cycle + 1 }) ∧
  (∀ target : Word, mnemonicText (.j target) = "J #" ++ signedText target)

/-- R122: the words of BEQ; its offset, 4 × signed(instr[15:0]); taken exactly on equal patterns, relative to pc + 4. -/
def Obligations.BranchIfEqualRule : Prop :=
  (∀ w : Word, w &&& 0xFC000000#32 = 0x08000000#32 ↔
    decode w = some (.beq (regAt w 21) (regAt w 16) (wrap32 (4 * (w.extractLsb' 0 16).toInt)))) ∧
  (∀ (rs rt : Reg) (offset : Word) (s : State), s.reg rs = s.reg rt →
    exec (.beq rs rt offset) s = .next { s with pc := s.pc + 4#32 + offset, cycle := s.cycle + 1 }) ∧
  (∀ (rs rt : Reg) (offset : Word) (s : State), s.reg rs ≠ s.reg rt →
    exec (.beq rs rt offset) s = .next { s with pc := s.pc + 4#32, cycle := s.cycle + 1 }) ∧
  (∀ (rs rt : Reg) (offset : Word), mnemonicText (.beq rs rt offset) =
    "BEQ " ++ (regText rs ++ ", " ++ (regText rt ++ ", " ++ ("#" ++ signedText offset))))

/-- R123: the words of BGTZ, its unused field ignored; taken exactly when the signed reading is above 0, that is when the
value is not 0 and bit 31 is clear. -/
def Obligations.BranchIfGreaterThanZeroRule : Prop :=
  (∀ w : Word, w &&& 0xFC000000#32 = 0x10000000#32 ↔
    decode w = some (.bgtz (regAt w 21) (wrap32 (4 * (w.extractLsb' 0 16).toInt)))) ∧
  (∀ (rs : Reg) (offset : Word) (s : State), 0 < (s.reg rs).toInt →
    exec (.bgtz rs offset) s = .next { s with pc := s.pc + 4#32 + offset, cycle := s.cycle + 1 }) ∧
  (∀ (rs : Reg) (offset : Word) (s : State), s.reg rs = 0#32 ∨ (s.reg rs).getLsbD 31 = true →
    exec (.bgtz rs offset) s = .next { s with pc := s.pc + 4#32, cycle := s.cycle + 1 }) ∧
  (∀ a : Word, 0 < a.toInt ∨ a = 0#32 ∨ a.getLsbD 31 = true) ∧
  (∀ (rs : Reg) (offset : Word), mnemonicText (.bgtz rs offset) =
    "BGTZ " ++ (regText rs ++ ", " ++ ("#" ++ signedText offset)))

/-- R124: the words of BREAK, every unused bit ignored; it halts, and pc and cycle keep their values; its cycle emits its
trace record like any other, and no cycle follows. That the record is put in front of the field `trace` is the model's
choice (assumption 3), and that the step after it answers the same state is the model's reading (assumption 8). -/
def Obligations.BreakRule : Prop :=
  (∀ w : Word, w &&& 0xFC000000#32 = 0x14000000#32 ↔ decode w = some .brk) ∧
  (∀ s : State, exec .brk s = .next { s with run := .halted }) ∧
  (∀ (s : State) (w : Word), s.run = .running → s.ifetch s.pc = .ok w → decode w = some .brk →
    ∃ t, step s = .next t ∧ step t = .next t ∧
      t = { s with run := .halted, trace :=
        { pc := s.pc, cycle := s.cycle, instr := .brk, regs := s.regs, dmem := s.dmem } :: s.trace }) ∧
  mnemonicText .brk = "BREAK"

/-- R24: the next pc of every instruction that a running machine executes. -/
def Obligations.NextPcIsThatOfTheTable : Prop :=
  ∀ (i : Instr) (s t : State), s.run = .running → exec i s = .next t →
    (t.run = .faulted → t.pc = s.pc) ∧
    (∀ d, destReg i = some d → t.run ≠ .faulted → t.pc = s.pc + 4#32) ∧
    (∀ rt offset base, i = .sw rt offset base → t.run ≠ .faulted → t.pc = s.pc + 4#32) ∧
    (∀ target, i = .j target → t.pc = target) ∧
    (∀ rs rt offset, i = .beq rs rt offset →
      t.pc = if s.reg rs = s.reg rt then s.pc + 4#32 + offset else s.pc + 4#32) ∧
    (∀ rs offset, i = .bgtz rs offset →
      t.pc = if 0 < (s.reg rs).toInt then s.pc + 4#32 + offset else s.pc + 4#32) ∧
    (i = .brk → t.pc = s.pc ∧ t.run = .halted)

/-! ### Loads and stores -/

/-- R130: the effective address is unsigned(x[base]) + signed(offset) modulo 2^32, the offset is the 16-bit field read
signed and not scaled, and the base register is read, never modified, unless it is the load's own destination. -/
def Obligations.EffectiveAddressRule : Prop :=
  (∀ (w : Word) (rt base : Reg) (offset : Word),
    decode w = some (.lw rt offset base) ∨ decode w = some (.sw rt offset base) →
    offset.toInt = (w.extractLsb' 0 16).toInt ∧ base.val = (w.extractLsb' 21 5).toNat) ∧
  (∀ (s : State) (base : Reg) (offset : Word),
    ((s.effectiveAddress base offset).toNat : Int) = ((s.reg base).toNat + offset.toInt) % 4294967296) ∧
  (∀ (rt base : Reg) (offset : Word) (s t : State), exec (.sw rt offset base) s = .next t → t.reg base = s.reg base) ∧
  (∀ (rt base : Reg) (offset : Word) (s t : State), exec (.lw rt offset base) s = .next t → rt ≠ base →
    t.reg base = s.reg base)

/-- R43: MemRead faults on an address that is no multiple of 4 and on one that is not mapped, with the same record, and
else returns the word. -/
def Obligations.MemoryReadRule : Prop :=
  ∀ (m : Memory) (a : Word),
    (a.toNat % 4 ≠ 0 → memRead m a = .error (.unmappedAddress .load a)) ∧
    (a.toNat % 4 = 0 → Memory.readWord m a.toNat = none → memRead m a = .error (.unmappedAddress .load a)) ∧
    (∀ v, a.toNat % 4 = 0 → Memory.readWord m a.toNat = some v → memRead m a = .ok v)

/-- R44: MemWrite faults on an address that is no multiple of 4 and on one outside the capacity, which by default is
never; else it sets the word, mapping it if it was unmapped, and no other byte. -/
def Obligations.MemoryWriteRule : Prop :=
  (∀ (capacity : Word → Bool) (m : Memory) (a v : Word),
    (a.toNat % 4 ≠ 0 → memWriteIn capacity m a v = .error (.unmappedAddress .store a)) ∧
    (a.toNat % 4 = 0 → capacity a = false → memWriteIn capacity m a v = .error (.unmappedAddress .store a)) ∧
    (a.toNat % 4 = 0 → capacity a = true → ∃ m', memWriteIn capacity m a v = .ok m' ∧
      Memory.readWord m' a.toNat = some v ∧
      (∀ x, x < a.toNat ∨ a.toNat + 4 ≤ x → Memory.readByte m' x = Memory.readByte m x) ∧
      (Memory.wf m → Memory.wf m'))) ∧
  (∀ (m : Memory) (a v : Word), memWrite m a v = memWriteIn (fun _ => true) m a v)

/-- R131: the words of SW; on an aligned address the store and nothing else but pc and cycle; on another the fault and
nothing else. -/
def Obligations.StoreWordRule : Prop :=
  (∀ w : Word, w &&& 0xFC000000#32 = 0x18000000#32 ↔
    decode w = some (.sw (regAt w 16) (wrap32 (w.extractLsb' 0 16).toInt) (regAt w 21))) ∧
  (∀ (rt base : Reg) (offset : Word) (s : State), (s.reg base + offset).toNat % 4 = 0 →
    ∃ t, exec (.sw rt offset base) s = .next t ∧
      Memory.readWord t.dmem (s.reg base + offset).toNat = some (s.reg rt) ∧
      (∀ a, a < (s.reg base + offset).toNat ∨ (s.reg base + offset).toNat + 4 ≤ a →
        Memory.readByte t.dmem a = Memory.readByte s.dmem a) ∧
      t = { s with dmem := t.dmem, pc := s.pc + 4#32, cycle := s.cycle + 1 }) ∧
  (∀ (rt base : Reg) (offset : Word) (s : State), (s.reg base + offset).toNat % 4 ≠ 0 →
    exec (.sw rt offset base) s =
      .next { s with run := .faulted, fault := some (.unmappedAddress .store (s.reg base + offset)) }) ∧
  (∀ (rt base : Reg) (offset : Word), mnemonicText (.sw rt offset base) =
    "SW " ++ (regText rt ++ ", " ++ (signedText offset ++ "(" ++ regText base ++ ")")))

/-- R132: the words of LW; on a mapped aligned address the load, the base read before rt is written; on any other the
fault and nothing else. -/
def Obligations.LoadWordRule : Prop :=
  (∀ w : Word, w &&& 0xFC000000#32 = 0x1C000000#32 ↔
    decode w = some (.lw (regAt w 16) (wrap32 (w.extractLsb' 0 16).toInt) (regAt w 21))) ∧
  (∀ (rt base : Reg) (offset v : Word) (s : State), (s.reg base + offset).toNat % 4 = 0 →
    Memory.readWord s.dmem (s.reg base + offset).toNat = some v →
    ∃ t, exec (.lw rt offset base) s = .next t ∧ registerWritten s t rt v) ∧
  (∀ (rt base : Reg) (offset : Word) (s : State),
    (s.reg base + offset).toNat % 4 ≠ 0 ∨ Memory.readWord s.dmem (s.reg base + offset).toNat = none →
    exec (.lw rt offset base) s =
      .next { s with run := .faulted, fault := some (.unmappedAddress .load (s.reg base + offset)) }) ∧
  (∀ (rt base : Reg) (offset : Word), mnemonicText (.lw rt offset base) =
    "LW " ++ (regText rt ++ ", " ++ (signedText offset ++ "(" ++ regText base ++ ")")))

/-- R55: a LW returns the value of the most recent SW to its address: a store that completes, then a load whose own base
and offset meet the same address, gives the stored register's value, whatever the registers that address it. -/
def Obligations.LoadReturnsTheLatestStore : Prop :=
  ∀ (rt base rt' base' : Reg) (offset offset' : Word) (s t : State),
    exec (.sw rt offset base) s = .next t → (s.reg base + offset).toNat % 4 = 0 →
    s.reg base' + offset' = s.reg base + offset →
    ∃ u, exec (.lw rt' offset' base') t = .next u ∧ registerWritten t u rt' (s.reg rt)

/-! ### The ALU -/

/-- R141, R142, R143: the words of ADD, SUB, MUL and their results in every state, whichever registers coincide. -/
def Obligations.ArithmeticRegisterRules : Prop :=
  (∀ w : Word, w &&& 0xE0070000#32 = 0xC0000000#32 ↔ decode w = some (.add (regAt w 11) (regAt w 24) (regAt w 19))) ∧
  (∀ w : Word, w &&& 0xE0070000#32 = 0xC0010000#32 ↔ decode w = some (.sub (regAt w 11) (regAt w 24) (regAt w 19))) ∧
  (∀ w : Word, w &&& 0xE0070000#32 = 0xC0020000#32 ↔ decode w = some (.mul (regAt w 11) (regAt w 24) (regAt w 19))) ∧
  (∀ (rd rs rt : Reg) (s : State),
    (∃ t, exec (.add rd rs rt) s = .next t ∧
      registerWritten s t rd (wrap32 ((s.reg rs).toInt + (s.reg rt).toInt))) ∧
    (∃ t, exec (.sub rd rs rt) s = .next t ∧
      registerWritten s t rd (wrap32 ((s.reg rs).toInt - (s.reg rt).toInt))) ∧
    (∃ t, exec (.mul rd rs rt) s = .next t ∧
      registerWritten s t rd (wrap32 ((s.reg rs).toInt * (s.reg rt).toInt))))

/-- R144 to R147: the words of AND, OR, XOR, NOR and their results in every state. -/
def Obligations.LogicRegisterRules : Prop :=
  (∀ w : Word, w &&& 0xE0070000#32 = 0xC0030000#32 ↔ decode w = some (.and (regAt w 11) (regAt w 24) (regAt w 19))) ∧
  (∀ w : Word, w &&& 0xE0070000#32 = 0xC0040000#32 ↔ decode w = some (.or (regAt w 11) (regAt w 24) (regAt w 19))) ∧
  (∀ w : Word, w &&& 0xE0070000#32 = 0xC0050000#32 ↔ decode w = some (.xor (regAt w 11) (regAt w 24) (regAt w 19))) ∧
  (∀ w : Word, w &&& 0xE0070000#32 = 0xC0060000#32 ↔ decode w = some (.nor (regAt w 11) (regAt w 24) (regAt w 19))) ∧
  (∀ (rd rs rt : Reg) (s : State),
    (∃ t, exec (.and rd rs rt) s = .next t ∧ registerWritten s t rd (s.reg rs &&& s.reg rt)) ∧
    (∃ t, exec (.or rd rs rt) s = .next t ∧ registerWritten s t rd (s.reg rs ||| s.reg rt)) ∧
    (∃ t, exec (.xor rd rs rt) s = .next t ∧ registerWritten s t rd (s.reg rs ^^^ s.reg rt)) ∧
    (∃ t, exec (.nor rd rs rt) s = .next t ∧ registerWritten s t rd (~~~(s.reg rs ||| s.reg rt))))

/-- R161 to R164: the words of ADDI, ANDI, ORI, XORI, the immediate sign-extended for all four, and their results in every
state. -/
def Obligations.ImmediateRules : Prop :=
  (∀ w : Word, w &&& 0xE0070000#32 = 0xE0000000#32 ↔
    decode w = some (.addi (regAt w 19) (regAt w 24) (wrap32 (w.extractLsb' 0 16).toInt))) ∧
  (∀ w : Word, w &&& 0xE0070000#32 = 0xE0010000#32 ↔
    decode w = some (.andi (regAt w 19) (regAt w 24) (wrap32 (w.extractLsb' 0 16).toInt))) ∧
  (∀ w : Word, w &&& 0xE0070000#32 = 0xE0020000#32 ↔
    decode w = some (.ori (regAt w 19) (regAt w 24) (wrap32 (w.extractLsb' 0 16).toInt))) ∧
  (∀ w : Word, w &&& 0xE0070000#32 = 0xE0030000#32 ↔
    decode w = some (.xori (regAt w 19) (regAt w 24) (wrap32 (w.extractLsb' 0 16).toInt))) ∧
  (∀ (rt rs : Reg) (imm : Word) (s : State),
    (∃ t, exec (.addi rt rs imm) s = .next t ∧ registerWritten s t rt (wrap32 ((s.reg rs).toInt + imm.toInt))) ∧
    (∃ t, exec (.andi rt rs imm) s = .next t ∧ registerWritten s t rt (s.reg rs &&& imm)) ∧
    (∃ t, exec (.ori rt rs imm) s = .next t ∧ registerWritten s t rt (s.reg rs ||| imm)) ∧
    (∃ t, exec (.xori rt rs imm) s = .next t ∧ registerWritten s t rt (s.reg rs ^^^ imm)))

/-- R148: the result of ADD, SUB and MUL is the low 32 bits of the exact result, the same from the unsigned readings, and
is the exact result itself wherever that is in range. -/
def Obligations.ArithmeticWrapsSilently : Prop :=
  ∀ (rd rs rt : Reg) (s t : State),
    (exec (.add rd rs rt) s = .next t →
      t.reg rd = wrap32 ((s.reg rs).toInt + (s.reg rt).toInt) ∧
      t.reg rd = wrap32 (((s.reg rs).toNat : Int) + (s.reg rt).toNat) ∧
      (-2147483648 ≤ (s.reg rs).toInt + (s.reg rt).toInt → (s.reg rs).toInt + (s.reg rt).toInt ≤ 2147483647 →
        (t.reg rd).toInt = (s.reg rs).toInt + (s.reg rt).toInt)) ∧
    (exec (.sub rd rs rt) s = .next t →
      t.reg rd = wrap32 ((s.reg rs).toInt - (s.reg rt).toInt) ∧
      t.reg rd = wrap32 (((s.reg rs).toNat : Int) - (s.reg rt).toNat) ∧
      (-2147483648 ≤ (s.reg rs).toInt - (s.reg rt).toInt → (s.reg rs).toInt - (s.reg rt).toInt ≤ 2147483647 →
        (t.reg rd).toInt = (s.reg rs).toInt - (s.reg rt).toInt)) ∧
    (exec (.mul rd rs rt) s = .next t →
      t.reg rd = wrap32 ((s.reg rs).toInt * (s.reg rt).toInt) ∧
      t.reg rd = wrap32 (((s.reg rs).toNat : Int) * (s.reg rt).toNat) ∧
      (-2147483648 ≤ (s.reg rs).toInt * (s.reg rt).toInt → (s.reg rs).toInt * (s.reg rt).toInt ≤ 2147483647 →
        (t.reg rd).toInt = (s.reg rs).toInt * (s.reg rt).toInt))

/-- R149: MUL returns the low 32 bits of the 64-bit product of the signed readings; the listed corner cases. The spec marks
R149 as derived from R148. -/
def Obligations.MultiplyReturnsTheLowWord : Prop :=
  ∀ (rd rs rt : Reg) (s t : State), exec (.mul rd rs rt) s = .next t →
    t.reg rd = ((s.reg rs).signExtend 64 * (s.reg rt).signExtend 64).extractLsb' 0 32 ∧
    (-2147483648 ≤ (s.reg rs).toInt * (s.reg rt).toInt → (s.reg rs).toInt * (s.reg rt).toInt ≤ 2147483647 →
      (t.reg rd).toInt = (s.reg rs).toInt * (s.reg rt).toInt) ∧
    (s.reg rt = 0#32 → t.reg rd = 0#32) ∧
    (s.reg rt = 1#32 → t.reg rd = s.reg rs) ∧
    (s.reg rt = 0xFFFFFFFF#32 → s.reg rs ≠ 0x80000000#32 → (t.reg rd).toInt = -(s.reg rs).toInt) ∧
    (s.reg rt = 0xFFFFFFFF#32 → s.reg rs = 0x80000000#32 → t.reg rd = 0x80000000#32) ∧
    (s.reg rs = 0x80000000#32 → s.reg rt = 0x80000000#32 → t.reg rd = 0#32) ∧
    (s.reg rs = 65536#32 → s.reg rt = 65536#32 → t.reg rd = 0#32) ∧
    (s.reg rs = 65535#32 → s.reg rt = 65535#32 → t.reg rd = 0xFFFE0001#32)

/-- R150: AND, OR, XOR and NOR act bit by bit; NOR is the complement of OR, as a signed number -(a | b) - 1; NOR of a
register with itself is its complement. The spec marks R150 as derived from R148 and R8. -/
def Obligations.LogicActsBitByBit : Prop :=
  ∀ (rd rs rt : Reg) (s t : State) (k : Nat), k < 32 →
    (exec (.and rd rs rt) s = .next t →
      (t.reg rd).getLsbD k = ((s.reg rs).getLsbD k && (s.reg rt).getLsbD k)) ∧
    (exec (.or rd rs rt) s = .next t →
      (t.reg rd).getLsbD k = ((s.reg rs).getLsbD k || (s.reg rt).getLsbD k)) ∧
    (exec (.xor rd rs rt) s = .next t →
      (t.reg rd).getLsbD k = ((s.reg rs).getLsbD k != (s.reg rt).getLsbD k)) ∧
    (exec (.nor rd rs rt) s = .next t →
      (t.reg rd).getLsbD k = !((s.reg rs).getLsbD k || (s.reg rt).getLsbD k) ∧
      (t.reg rd).toInt = -(s.reg rs ||| s.reg rt).toInt - 1 ∧
      (rs = rt → t.reg rd = ~~~s.reg rs))

/-- R165: the immediate is sign-extended for all four instructions of the family: ANDI with field 0xFFFF keeps all of rs,
ORI with bit 15 set turns on bits 31:15, XORI with 0xFFFF complements, and with bit 15 clear ORI and XORI leave bits
31:15 as they are. -/
def Obligations.LogicalImmediatesAreSignExtended : Prop :=
  ∀ (w : Word) (rt rs : Reg) (imm : Word) (s t : State),
    (decode w = some (.addi rt rs imm) ∨ decode w = some (.andi rt rs imm) ∨ decode w = some (.ori rt rs imm) ∨
      decode w = some (.xori rt rs imm) → imm.toInt = (w.extractLsb' 0 16).toInt) ∧
    (decode w = some (.andi rt rs imm) → exec (.andi rt rs imm) s = .next t →
      w.extractLsb' 0 16 = 0xFFFF#16 → t.reg rt = s.reg rs) ∧
    (decode w = some (.ori rt rs imm) → exec (.ori rt rs imm) s = .next t → w.getLsbD 15 = true →
      ∀ k, 15 ≤ k → k < 32 → (t.reg rt).getLsbD k = true) ∧
    (decode w = some (.xori rt rs imm) → exec (.xori rt rs imm) s = .next t →
      w.extractLsb' 0 16 = 0xFFFF#16 → t.reg rt = ~~~s.reg rs) ∧
    (decode w = some (.ori rt rs imm) → exec (.ori rt rs imm) s = .next t → w.getLsbD 15 = false →
      ∀ k, 15 ≤ k → k < 32 → (t.reg rt).getLsbD k = (s.reg rs).getLsbD k) ∧
    (decode w = some (.xori rt rs imm) → exec (.xori rt rs imm) s = .next t → w.getLsbD 15 = false →
      ∀ k, 15 ≤ k → k < 32 → (t.reg rt).getLsbD k = (s.reg rs).getLsbD k)

/-! ### Frames -/

/-- The frame of the ALU instructions: every register but the destination, the run state, the fault record, every byte of
both memories, CODE_END and the trace are unchanged. -/
def Obligations.AluFrame : Prop :=
  ∀ (i : Instr) (d : Reg) (s t : State), destReg i = some d → (∀ rt offset base, i ≠ .lw rt offset base) →
    exec i s = .next t →
    (∀ r, r ≠ d → t.reg r = s.reg r) ∧ t.run = s.run ∧ t.fault = s.fault ∧ t.codeEnd = s.codeEnd ∧
    t.trace = s.trace ∧
    (∀ a, Memory.readByte t.dmem a = Memory.readByte s.dmem a) ∧
    (∀ a, Memory.readByte t.imem a = Memory.readByte s.imem a)

/-- The frame of J, BEQ, BGTZ and BREAK: every register, the fault record, every byte of both memories, CODE_END and the
trace are unchanged; J, BEQ and BGTZ leave the run state, BREAK leaves pc and cycle. -/
def Obligations.ControlFrame : Prop :=
  ∀ (i : Instr) (s t : State),
    (∃ target, i = .j target) ∨ (∃ rs rt offset, i = .beq rs rt offset) ∨ (∃ rs offset, i = .bgtz rs offset) ∨
      i = .brk →
    exec i s = .next t →
    (∀ r, t.reg r = s.reg r) ∧ t.fault = s.fault ∧ t.codeEnd = s.codeEnd ∧ t.trace = s.trace ∧
    (∀ a, Memory.readByte t.dmem a = Memory.readByte s.dmem a) ∧
    (∀ a, Memory.readByte t.imem a = Memory.readByte s.imem a) ∧
    (i ≠ .brk → t.run = s.run ∧ t.cycle = s.cycle + 1) ∧ (i = .brk → t.pc = s.pc ∧ t.cycle = s.cycle)

/-- The frame of LW and SW: every register but LW's destination, every byte of DMEM outside the word SW stores, all of
IMEM, CODE_END and the trace are unchanged; the run state and the fault record change only where the access faults, and
then nothing else does. -/
def Obligations.LoadStoreFrame : Prop :=
  ∀ (i : Instr) (s t : State),
    (∃ rt offset base, i = .lw rt offset base) ∨ (∃ rt offset base, i = .sw rt offset base) →
    exec i s = .next t →
    (∀ r, destReg i ≠ some r → t.reg r = s.reg r) ∧ t.codeEnd = s.codeEnd ∧ t.trace = s.trace ∧
    (∀ a, Memory.readByte t.imem a = Memory.readByte s.imem a) ∧
    (∀ a, (∀ ea, storeAddress i s = some ea → a < ea.toNat ∨ ea.toNat + 4 ≤ a) →
      Memory.readByte t.dmem a = Memory.readByte s.dmem a) ∧
    ((t.run = s.run ∧ t.fault = s.fault ∧ t.cycle = s.cycle + 1) ∨
      ∃ f, t = { s with run := .faulted, fault := some f })

/-! ### Status outputs -/

/-- R197: the codes and the fields of the fault outputs. -/
def Obligations.FaultOutputsAreThoseOfTheTable : Prop :=
  (faultKind none = 0#3 ∧ faultAccess none = 0#2) ∧
  (∀ (i : Nat) (text : List Char), faultKind (some (.malformedWord i text)) = 1#3 ∧
    faultAccess (some (.malformedWord i text)) = 0#2 ∧
    faultAddr (some (.malformedWord i text)) = some (BitVec.ofNat 32 (128 + 4 * i)) ∧
    faultWord (some (.malformedWord i text)) = none) ∧
  (∀ a w : Word, faultKind (some (.unknownOpcode a w)) = 2#3 ∧ faultAccess (some (.unknownOpcode a w)) = 0#2 ∧
    faultAddr (some (.unknownOpcode a w)) = some a ∧ faultWord (some (.unknownOpcode a w)) = some w) ∧
  (∀ a : Word, faultKind (some (.missingTerminator a)) = 3#3 ∧ faultAccess (some (.missingTerminator a)) = 0#2 ∧
    faultAddr (some (.missingTerminator a)) = some a ∧ faultWord (some (.missingTerminator a)) = none) ∧
  (∀ (access : Access) (a : Word), faultKind (some (.unmappedAddress access a)) = 4#3 ∧
    faultAccess (some (.unmappedAddress access a)) =
      (match access with
       | .fetch => 1#2
       | .load => 2#2
       | .store => 3#2) ∧
    faultAddr (some (.unmappedAddress access a)) = some a ∧ faultWord (some (.unmappedAddress access a)) = none)
end

