-- ==== Sys2Proof/Laws/Decode.lean ====
section
/-! SUPPORT. The fields of an encoded word, format by format (30_encoding.md R72): each is what the encoder put there.
And what a decoded word's major and sub-opcode are. -/

namespace Sys2Proof

/-! ### Slices of concatenations -/

section slices
variable (m : BitVec 3) (s : BitVec 3) (a b d : BitVec 5) (u : BitVec 11) (k : BitVec 16) (t : BitVec 26)

theorem cat2_slices :
    (m ++ a ++ b ++ s ++ d ++ u).extractLsb' 29 3 = m ∧ (m ++ a ++ b ++ s ++ d ++ u).extractLsb' 24 5 = a ∧
    (m ++ a ++ b ++ s ++ d ++ u).extractLsb' 19 5 = b ∧ (m ++ a ++ b ++ s ++ d ++ u).extractLsb' 16 3 = s ∧
    (m ++ a ++ b ++ s ++ d ++ u).extractLsb' 11 5 = d ∧ (m ++ a ++ b ++ s ++ d ++ u).extractLsb' 0 11 = u := by
  refine ⟨?_, ?_, ?_, ?_, ?_, ?_⟩ <;>
    (simp (disch := decide) only [BitVec.extractLsb'_append_eq_of_le, BitVec.extractLsb'_append_eq_of_add_le];
     exact BitVec.extractLsb'_eq_self)

theorem cat3_slices :
    (m ++ a ++ b ++ s ++ k).extractLsb' 29 3 = m ∧ (m ++ a ++ b ++ s ++ k).extractLsb' 24 5 = a ∧
    (m ++ a ++ b ++ s ++ k).extractLsb' 19 5 = b ∧ (m ++ a ++ b ++ s ++ k).extractLsb' 16 3 = s ∧
    (m ++ a ++ b ++ s ++ k).extractLsb' 0 16 = k := by
  refine ⟨?_, ?_, ?_, ?_, ?_⟩ <;>
    (simp (disch := decide) only [BitVec.extractLsb'_append_eq_of_le, BitVec.extractLsb'_append_eq_of_add_le];
     exact BitVec.extractLsb'_eq_self)

theorem cat1b_slices :
    (m ++ s ++ a ++ b ++ k).extractLsb' 29 3 = m ∧ (m ++ s ++ a ++ b ++ k).extractLsb' 26 3 = s ∧
    (m ++ s ++ a ++ b ++ k).extractLsb' 21 5 = a ∧ (m ++ s ++ a ++ b ++ k).extractLsb' 16 5 = b ∧
    (m ++ s ++ a ++ b ++ k).extractLsb' 0 16 = k := by
  refine ⟨?_, ?_, ?_, ?_, ?_⟩ <;>
    (simp (disch := decide) only [BitVec.extractLsb'_append_eq_of_le, BitVec.extractLsb'_append_eq_of_add_le];
     exact BitVec.extractLsb'_eq_self)

theorem cat1j_slices :
    (m ++ s ++ t).extractLsb' 29 3 = m ∧ (m ++ s ++ t).extractLsb' 26 3 = s ∧ (m ++ s ++ t).extractLsb' 0 26 = t := by
  refine ⟨?_, ?_, ?_⟩ <;>
    (simp (disch := decide) only [BitVec.extractLsb'_append_eq_of_le, BitVec.extractLsb'_append_eq_of_add_le];
     exact BitVec.extractLsb'_eq_self)
end slices

/-! ### Register fields -/

@[simp] theorem regBits_toNat (r : Reg) : (regBits r).toNat = r.val := by
  simp only [regBits, BitVec.toNat_ofNat]
  exact Nat.mod_eq_of_lt r.isLt

theorem regAt_eq_of_slice {w : Word} {lo : Nat} {r : Reg} (h : w.extractLsb' lo 5 = regBits r) : regAt w lo = r := by
  apply Fin.ext
  simp only [regAt, h, regBits_toNat]

theorem regBits_regAt (w : Word) (lo : Nat) : regBits (regAt w lo) = w.extractLsb' lo 5 := by
  apply BitVec.eq_of_toNat_eq
  simp only [regBits_toNat, regAt]

/-! ### The fields of an encoded word -/

section encoded
variable (sub : BitVec 3) (rd rs rt : Reg) (a b : BitVec 5) (imm : Word) (k : BitVec 16) (t : BitVec 26)

@[simp] theorem encodeC2_major : majorOf (encodeC2 sub rd rs rt) = 0b110#3 := (cat2_slices _ _ _ _ _ _).1
@[simp] theorem encodeC2_sub : subAluOf (encodeC2 sub rd rs rt) = sub := (cat2_slices _ _ _ _ _ _).2.2.2.1
@[simp] theorem encodeC2_rs : rsAluOf (encodeC2 sub rd rs rt) = rs :=
  regAt_eq_of_slice (cat2_slices _ _ _ _ _ _).2.1
@[simp] theorem encodeC2_rt : rtAluOf (encodeC2 sub rd rs rt) = rt :=
  regAt_eq_of_slice (cat2_slices _ _ _ _ _ _).2.2.1
@[simp] theorem encodeC2_rd : rdOf (encodeC2 sub rd rs rt) = rd :=
  regAt_eq_of_slice (cat2_slices _ _ _ _ _ _).2.2.2.2.1

@[simp] theorem encodeC3_major : majorOf (encodeC3 sub rt rs imm) = 0b111#3 := (cat3_slices _ _ _ _ _).1
@[simp] theorem encodeC3_sub : subAluOf (encodeC3 sub rt rs imm) = sub := (cat3_slices _ _ _ _ _).2.2.2.1
@[simp] theorem encodeC3_rs : rsAluOf (encodeC3 sub rt rs imm) = rs :=
  regAt_eq_of_slice (cat3_slices _ _ _ _ _).2.1
@[simp] theorem encodeC3_rt : rtAluOf (encodeC3 sub rt rs imm) = rt :=
  regAt_eq_of_slice (cat3_slices _ _ _ _ _).2.2.1
@[simp] theorem encodeC3_imm16 : (encodeC3 sub rt rs imm).extractLsb' 0 16 = imm.extractLsb' 0 16 :=
  (cat3_slices _ _ _ _ _).2.2.2.2

@[simp] theorem encodeC1B_major : majorOf (encodeC1B sub a b k) = 0b000#3 := (cat1b_slices _ _ _ _ _).1
@[simp] theorem encodeC1B_sub : sub1Of (encodeC1B sub a b k) = sub := (cat1b_slices _ _ _ _ _).2.1
@[simp] theorem encodeC1B_rs : rs1Of (encodeC1B sub (regBits rs) b k) = rs :=
  regAt_eq_of_slice (cat1b_slices _ _ _ _ _).2.2.1
@[simp] theorem encodeC1B_rt : rt1Of (encodeC1B sub a (regBits rt) k) = rt :=
  regAt_eq_of_slice (cat1b_slices _ _ _ _ _).2.2.2.1
@[simp] theorem encodeC1B_imm16 : (encodeC1B sub a b k).extractLsb' 0 16 = k := (cat1b_slices _ _ _ _ _).2.2.2.2

@[simp] theorem encodeC1J_major : majorOf (encodeC1J sub t) = 0b000#3 := (cat1j_slices _ _ _).1
@[simp] theorem encodeC1J_sub : sub1Of (encodeC1J sub t) = sub := (cat1j_slices _ _ _).2.1
@[simp] theorem encodeC1J_field26 : (encodeC1J sub t).extractLsb' 0 26 = t := (cat1j_slices _ _ _).2.2
end encoded

/-! ### What a decoded word looks like -/

/-- The tables of R75 and R76, row by row. -/
theorem subop2_eq_some_iff (sub : BitVec 3) (op : AluRegOp) :
    subop2 sub = some op ↔
      sub = match op with
        | .add => 0b000#3
        | .sub => 0b001#3
        | .mul => 0b010#3
        | .and => 0b011#3
        | .or => 0b100#3
        | .xor => 0b101#3
        | .nor => 0b110#3 := by
  cases op <;> revert sub <;> decide

theorem subop3_eq_some_iff (sub : BitVec 3) (op : AluImmOp) :
    subop3 sub = some op ↔
      sub = match op with
        | .addi => 0b000#3
        | .andi => 0b001#3
        | .ori => 0b010#3
        | .xori => 0b011#3 := by
  cases op <;> revert sub <;> decide

/-- The three ways a word decodes: a Category 1 sub-opcode, or an operation of the Category 2 or Category 3 table. -/
theorem decode_cases {w : Word} {i : Instr} (h : decode w = some i) :
    (majorOf w = 0b000#3 ∧
      ((sub1Of w = 0b000#3 ∧ i = .j (targetOf w)) ∨
       (sub1Of w = 0b010#3 ∧ i = .beq (rs1Of w) (rt1Of w) (branchOffsetOf w)) ∨
       (sub1Of w = 0b100#3 ∧ i = .bgtz (rs1Of w) (branchOffsetOf w)) ∨
       (sub1Of w = 0b101#3 ∧ i = .brk) ∨
       (sub1Of w = 0b110#3 ∧ i = .sw (rt1Of w) (immOf w) (rs1Of w)) ∨
       (sub1Of w = 0b111#3 ∧ i = .lw (rt1Of w) (immOf w) (rs1Of w)))) ∨
    (majorOf w = 0b110#3 ∧ ∃ op, subop2 (subAluOf w) = some op ∧ i = op.instr (rdOf w) (rsAluOf w) (rtAluOf w)) ∨
    (majorOf w = 0b111#3 ∧ ∃ op, subop3 (subAluOf w) = some op ∧ i = op.instr (rtAluOf w) (rsAluOf w) (immOf w)) := by
  unfold decode decodeWith at h
  by_cases h0 : majorOf w = 0b000#3
  · rw [if_pos h0] at h
    refine .inl ⟨h0, ?_⟩
    unfold decodeCat1 at h
    split at h
    · next e => exact .inl ⟨e, by simpa using h.symm⟩
    split at h
    · next e => exact .inr (.inl ⟨e, by simpa using h.symm⟩)
    split at h
    · next e => exact .inr (.inr (.inl ⟨e, by simpa using h.symm⟩))
    split at h
    · next e => exact .inr (.inr (.inr (.inl ⟨e, by simpa using h.symm⟩)))
    split at h
    · next e => exact .inr (.inr (.inr (.inr (.inl ⟨e, by simpa using h.symm⟩))))
    split at h
    · next e => exact .inr (.inr (.inr (.inr (.inr ⟨e, by simpa using h.symm⟩))))
    · cases h
  rw [if_neg h0] at h
  by_cases h2 : majorOf w = 0b110#3
  · rw [if_pos h2] at h
    obtain ⟨op, ho, e⟩ := Option.map_eq_some_iff.1 h
    exact .inr (.inl ⟨h2, op, ho, e.symm⟩)
  rw [if_neg h2] at h
  by_cases h3 : majorOf w = 0b111#3
  · rw [if_pos h3] at h
    obtain ⟨op, ho, e⟩ := Option.map_eq_some_iff.1 h
    exact .inr (.inr ⟨h3, op, ho, e.symm⟩)
  · rw [if_neg h3] at h; cases h

end Sys2Proof
end

