-- ==== Sys2Proof/Laws/Memory.lean ====
section
/-! SUPPORT. The memory laws: a read after a write gives the value written, a write leaves every other place alone, and
every memory operation keeps the canonical form. -/

namespace Sys2Proof.Machine

open Memory

theorem Memory.readByte_writeByte_same (m : Memory) (a : Nat) (b : Byte) : readByte (writeByte m a b) a = some b := by
  induction m with
  | nil => simp [writeByte, readByte]
  | cons c m ih =>
    obtain ⟨k, v⟩ := c
    simp only [writeByte]
    split
    · simp [readByte]
    · split
      · simp [readByte]
      · next h => simp [readByte, Ne.symm h, ih]

theorem Memory.readByte_writeByte_other (m : Memory) {a x : Nat} (b : Byte) (h : x ≠ a) :
    readByte (writeByte m a b) x = readByte m x := by
  induction m with
  | nil => simp [writeByte, readByte, Ne.symm h]
  | cons c m ih =>
    obtain ⟨k, v⟩ := c
    simp only [writeByte]
    split
    · simp [readByte, Ne.symm h]
    · split
      · next e => subst e; simp [readByte, Ne.symm h]
      · simp [readByte, ih]

theorem Memory.readByte_writeByte (m : Memory) (a x : Nat) (b : Byte) :
    readByte (writeByte m a b) x = if x = a then some b else readByte m x := by
  split
  · next h => subst h; exact readByte_writeByte_same m x b
  · next h => exact readByte_writeByte_other m b h

/-- Which byte a word write leaves at an address. -/
theorem Memory.readByte_writeWord (m : Memory) (a x : Nat) (w : Word) :
    readByte (writeWord m a w) x =
      if a ≤ x ∧ x < a + 4 then some (byteOfWord w (x - a)) else readByte m x := by
  simp only [writeWord, readByte_writeByte]
  by_cases h : a ≤ x ∧ x < a + 4
  · obtain ⟨h1, h2⟩ := h
    have : x = a ∨ x = a + 1 ∨ x = a + 2 ∨ x = a + 3 := by omega
    rcases this with rfl | rfl | rfl | rfl <;> simp
  · have : x ≠ a ∧ x ≠ a + 1 ∧ x ≠ a + 2 ∧ x ≠ a + 3 := by omega
    simp [h, this]

/-- A word put together from its own bytes. -/
theorem Memory.wordOfBytes_byteOfWord (w : Word) :
    wordOfBytes (byteOfWord w 0) (byteOfWord w 1) (byteOfWord w 2) (byteOfWord w 3) = w := by
  apply BitVec.eq_of_getLsbD_eq
  intro i hi
  simp only [wordOfBytes, byteOfWord, BitVec.getLsbD_append, BitVec.getLsbD_extractLsb']
  have : i < 8 ∨ (8 ≤ i ∧ i < 16) ∨ (16 ≤ i ∧ i < 24) ∨ 24 ≤ i := by omega
  rcases this with h | h | h | h
  · simp [h]
  · simp [show ¬ i < 8 by omega, show i - 8 < 8 by omega, show 8 + (i - 8) = i by omega]
  · simp [show ¬ i < 8 by omega, show ¬ i - 8 < 8 by omega, show i - 8 - 8 < 8 by omega,
      show 16 + (i - 8 - 8) = i by omega]
  · simp [show ¬ i < 8 by omega, show ¬ i - 8 < 8 by omega, show ¬ i - 8 - 8 < 8 by omega,
      show i - 8 - 8 - 8 < 8 by omega, show 24 + (i - 8 - 8 - 8) = i by omega]

theorem Memory.readWord_writeWord_same (m : Memory) (a : Nat) (w : Word) : readWord (writeWord m a w) a = some w := by
  simp [readWord, readByte_writeWord, wordOfBytes_byteOfWord]

theorem Memory.readWord_writeWord_apart (m : Memory) {a x : Nat} (w : Word) (h : x + 4 ≤ a ∨ a + 4 ≤ x) :
    readWord (writeWord m a w) x = readWord m x := by
  have e : ∀ k < 4, ¬ (a ≤ x + k ∧ x + k < a + 4) := by intro k hk; omega
  have e0 := e 0 (by omega)
  simp only [Nat.add_zero] at e0
  simp only [readWord, readByte_writeWord, if_neg e0, if_neg (e 1 (by omega)), if_neg (e 2 (by omega)),
    if_neg (e 3 (by omega))]

/-- Aligned words: a write changes the word at its own address and no other. -/
theorem Memory.readWord_writeWord (m : Memory) {a x : Nat} (w : Word) (ha : a % 4 = 0) (hx : x % 4 = 0) :
    readWord (writeWord m a w) x = if x = a then some w else readWord m x := by
  split
  · next h => subst h; exact readWord_writeWord_same m x w
  · next h => exact readWord_writeWord_apart m w (by omega)

theorem Memory.readByte_eq_none_iff (m : Memory) (a : Nat) : readByte m a = none ↔ ∀ c ∈ m, c.1 ≠ a := by
  induction m with
  | nil => simp [readByte]
  | cons c m ih =>
    obtain ⟨k, v⟩ := c
    simp only [readByte]
    split
    · next h => simp [h]
    · next h => simp [ih, h]

theorem Memory.mapped_iff (m : Memory) (a : Nat) : mapped m a = true ↔ ∃ c ∈ m, c.1 = a := by
  have h := readByte_eq_none_iff m a
  simp only [mapped, Option.isSome_iff_ne_none, ne_eq, h]
  simp

/-- The addresses a byte write lists. -/
theorem Memory.mem_writeByte (m : Memory) (a : Nat) (b : Byte) (c : Host.Cell) (h : c ∈ writeByte m a b) :
    c = (a, b) ∨ c ∈ m := by
  induction m with
  | nil => simpa [writeByte] using h
  | cons d m ih =>
    obtain ⟨k, v⟩ := d
    simp only [writeByte] at h
    split at h
    · simpa using h
    · split at h
      · simp only [List.mem_cons] at h ⊢
        rcases h with h | h
        · exact .inl h
        · exact .inr (.inr h)
      · simp only [List.mem_cons] at h ⊢
        rcases h with h | h
        · exact .inr (.inl h)
        · rcases ih h with h | h
          · exact .inl h
          · exact .inr (.inr h)

/-- Addresses strictly rising. -/
abbrev Memory.rising (m : Memory) : Prop := List.Pairwise (fun c d : Host.Cell => c.1 < d.1) m

theorem Memory.writeByte_rising (m : Memory) (a : Nat) (b : Byte) (h : rising m) : rising (writeByte m a b) := by
  induction m with
  | nil => simp [writeByte, rising]
  | cons c m ih =>
    obtain ⟨k, v⟩ := c
    rw [rising, List.pairwise_cons] at h
    obtain ⟨hk, hm⟩ := h
    simp only [writeByte]
    split
    · next ha =>
      rw [rising, List.pairwise_cons]
      refine ⟨?_, List.pairwise_cons.2 ⟨hk, hm⟩⟩
      intro c hc
      rcases List.mem_cons.1 hc with rfl | hc
      · exact ha
      · exact Nat.lt_trans ha (hk c hc)
    · split
      · next _ e => subst e; exact List.pairwise_cons.2 ⟨hk, hm⟩
      · next h1 h2 =>
        rw [rising, List.pairwise_cons]
        refine ⟨?_, ih hm⟩
        intro c hc
        rcases mem_writeByte m a b c hc with rfl | hc
        · show k < a; omega
        · exact hk c hc

theorem Memory.mem_writeWord (m : Memory) (a : Nat) (w : Word) (c : Host.Cell) (h : c ∈ writeWord m a w) :
    (a ≤ c.1 ∧ c.1 < a + 4) ∨ c ∈ m := by
  rcases mem_writeByte _ _ _ _ h with rfl | h
  · left; constructor <;> simp
  rcases mem_writeByte _ _ _ _ h with rfl | h
  · left; constructor <;> simp
  rcases mem_writeByte _ _ _ _ h with rfl | h
  · left; constructor <;> simp
  rcases mem_writeByte _ _ _ _ h with rfl | h
  · left; constructor <;> simp
  exact .inr h

/-- The empty memory is in canonical form. -/
theorem Memory.wf_nil : wf [] := by simp [wf]

/-- Writing an aligned word of the 32-bit space keeps the canonical form. -/
theorem Memory.writeWord_wf {m : Memory} {a : Nat} (w : Word) (h : wf m) (ha : a % 4 = 0) (hb : a < 4294967296) :
    wf (writeWord m a w) := by
  obtain ⟨h1, h2, h3⟩ := h
  refine ⟨?_, ?_, ?_⟩
  · exact writeByte_rising _ _ _ (writeByte_rising _ _ _ (writeByte_rising _ _ _ (writeByte_rising _ _ _ h1)))
  · intro c hc
    rcases mem_writeWord m a w c hc with h | h
    · omega
    · exact h2 c h
  · intro c hc k hk
    simp only [mapped, readByte_writeWord]
    rcases mem_writeWord m a w c hc with h | h
    · rw [if_pos (by omega)]; rfl
    · split
      · rfl
      · exact h3 c h k hk

/-- In canonical form the four bytes of an aligned word are mapped together. -/
theorem Memory.readWord_isSome_iff {m : Memory} (h : wf m) {a : Nat} (ha : a % 4 = 0) :
    (readWord m a).isSome = true ↔ mapped m a = true := by
  constructor
  · intro hs
    simp only [readWord] at hs
    split at hs
    · next b0 _ _ _ h0 _ _ _ => simp [mapped, h0]
    · simp at hs
  · intro hm
    obtain ⟨c, hc, rfl⟩ := (mapped_iff m a).1 hm
    have e : c.1 / 4 * 4 = c.1 := by omega
    have hk := h.2.2 c hc
    rw [e] at hk
    have h0 := hk 0 (by omega)
    have h1 := hk 1 (by omega)
    have h2 := hk 2 (by omega)
    have h3 := hk 3 (by omega)
    simp only [mapped, Option.isSome_iff_exists, Nat.add_zero] at h0 h1 h2 h3
    obtain ⟨_, h0⟩ := h0
    obtain ⟨_, h1⟩ := h1
    obtain ⟨_, h2⟩ := h2
    obtain ⟨_, h3⟩ := h3
    simp [readWord, h0, h1, h2, h3]


theorem aligned_iff (a : Word) : aligned a = true ↔ a.toNat % 4 = 0 := by simp [aligned]

theorem codeAddress_iff (a : Word) : codeAddress a = true ↔ a.toNat % 4 = 0 ∧ 128 ≤ a.toNat := by
  have h : Config.codeBase = 128 := rfl
  simp only [codeAddress, aligned, h, Bool.and_eq_true, beq_iff_eq, decide_eq_true_eq]

theorem inCodeRegion_iff (codeEnd a : Word) :
    inCodeRegion codeEnd a = true ↔ a.toNat % 4 = 0 ∧ 128 ≤ a.toNat ∧ a.toNat ≤ codeEnd.toNat := by
  simp only [inCodeRegion, Bool.and_eq_true, codeAddress_iff, decide_eq_true_eq, and_assoc]

/-- Everything MemRead can do. -/
theorem memRead_cases (m : Memory) (a : Word) :
    (∃ v, memRead m a = .ok v ∧ a.toNat % 4 = 0 ∧ Memory.readWord m a.toNat = some v) ∨
    (memRead m a = .error (.unmappedAddress .load a) ∧ (a.toNat % 4 = 0 → Memory.readWord m a.toNat = none)) := by
  unfold memRead
  by_cases h : aligned a = true
  · rw [if_pos h]
    cases hr : Memory.readWord m a.toNat with
    | some v => exact .inl ⟨v, rfl, (aligned_iff a).1 h, rfl⟩
    | none => exact .inr ⟨rfl, fun _ => rfl⟩
  · rw [if_neg h]
    exact .inr ⟨rfl, fun h' => absurd ((aligned_iff a).2 h') h⟩

/-- Everything MemWrite can do with this machine's capacity. -/
theorem memWrite_cases (m : Memory) (a v : Word) :
    (memWrite m a v = .ok (Memory.writeWord m a.toNat v) ∧ a.toNat % 4 = 0) ∨
    (memWrite m a v = .error (.unmappedAddress .store a) ∧ a.toNat % 4 ≠ 0) := by
  unfold memWrite memWriteIn
  by_cases h : aligned a = true
  · left; simp [h, Config.dmemCapacity, (aligned_iff a).1 h]
  · right; rw [if_neg h]; exact ⟨rfl, fun h' => h ((aligned_iff a).2 h')⟩

/-- MemWrite keeps the canonical form. -/
theorem memWrite_wf {m m' : Memory} {a v : Word} (h : Memory.wf m) (hw : memWrite m a v = .ok m') : Memory.wf m' := by
  rcases memWrite_cases m a v with ⟨e, ha⟩ | ⟨e, _⟩
  · rw [e] at hw; cases hw
    exact Memory.writeWord_wf v h ha a.isLt
  · rw [e] at hw; cases hw

/-- Everything instruction fetch can do. -/
theorem ifetch_cases (s : State) (a : Word) :
    (∃ w, s.ifetch a = .ok w ∧ a.toNat % 4 = 0 ∧ 128 ≤ a.toNat ∧ a.toNat ≤ s.codeEnd.toNat ∧
      Memory.readWord s.imem a.toNat = some w) ∨
    (s.ifetch a = .error (.unmappedAddress .fetch a) ∧
      (a.toNat % 4 = 0 ∧ 128 ≤ a.toNat ∧ a.toNat ≤ s.codeEnd.toNat → Memory.readWord s.imem a.toNat = none)) := by
  unfold State.ifetch
  by_cases h : inCodeRegion s.codeEnd a = true
  · rw [if_pos h]
    obtain ⟨h1, h2, h3⟩ := (inCodeRegion_iff _ _).1 h
    cases hr : Memory.readWord s.imem a.toNat with
    | some w => exact .inl ⟨w, rfl, h1, h2, h3, rfl⟩
    | none => exact .inr ⟨rfl, fun _ => rfl⟩
  · rw [if_neg h]
    exact .inr ⟨rfl, fun h' => absurd ((inCodeRegion_iff _ _).2 h') h⟩

/-- A fetch inside the code region gives the code word there. -/
theorem ifetch_of_codeWord {s : State} {a w : Word} (h1 : a.toNat % 4 = 0) (h2 : 128 ≤ a.toNat)
    (h3 : a.toNat ≤ s.codeEnd.toNat) (hw : Memory.readWord s.imem a.toNat = some w) : s.ifetch a = .ok w := by
  simp only [State.ifetch, (inCodeRegion_iff s.codeEnd a).2 ⟨h1, h2, h3⟩, if_true, hw]

/-- A fetch outside the code region faults. -/
theorem ifetch_outside {s : State} {a : Word} (h : ¬ (a.toNat % 4 = 0 ∧ 128 ≤ a.toNat ∧ a.toNat ≤ s.codeEnd.toNat)) :
    s.ifetch a = .error (.unmappedAddress .fetch a) := by
  rw [State.ifetch, if_neg fun h' => h ((inCodeRegion_iff _ _).1 h')]

/-- The memory of the reset state is in canonical form. -/
theorem reset_memories_wf : Memory.wf State.reset.imem ∧ Memory.wf State.reset.dmem := ⟨Memory.wf_nil, Memory.wf_nil⟩

end Sys2Proof.Machine
end

