-- ==== Sys2Proof/Laws/State.lean ====
section
/-! SUPPORT. One lemma per field per update of the state, and the registers' read-after-write laws. -/

namespace Sys2Proof.Machine

section setReg
variable (s : State) (r : Reg) (v : Word)
@[simp] theorem State.setReg_pc : (s.setReg r v).pc = s.pc := rfl
@[simp] theorem State.setReg_cycle : (s.setReg r v).cycle = s.cycle := rfl
@[simp] theorem State.setReg_run : (s.setReg r v).run = s.run := rfl
@[simp] theorem State.setReg_fault : (s.setReg r v).fault = s.fault := rfl
@[simp] theorem State.setReg_imem : (s.setReg r v).imem = s.imem := rfl
@[simp] theorem State.setReg_dmem : (s.setReg r v).dmem = s.dmem := rfl
@[simp] theorem State.setReg_codeEnd : (s.setReg r v).codeEnd = s.codeEnd := rfl
@[simp] theorem State.setReg_trace : (s.setReg r v).trace = s.trace := rfl

@[simp] theorem State.setReg_reg_same : (s.setReg r v).reg r = v := by
  simp [State.setReg, State.reg]

theorem State.setReg_reg_other {q : Reg} (h : q ≠ r) : (s.setReg r v).reg q = s.reg q := by
  have : r.val ≠ q.val := fun e => h (Fin.ext e.symm)
  simp [State.setReg, State.reg, this]

theorem State.setReg_reg (q : Reg) : (s.setReg r v).reg q = if q = r then v else s.reg q := by
  split
  · next h => subst h; simp
  · next h => exact State.setReg_reg_other s r v h
end setReg

section commit
variable (s : State) (n : Word)
@[simp] theorem State.commit_regs : (s.commit n).regs = s.regs := rfl
@[simp] theorem State.commit_pc : (s.commit n).pc = n := rfl
@[simp] theorem State.commit_cycle : (s.commit n).cycle = s.cycle + 1 := rfl
@[simp] theorem State.commit_run : (s.commit n).run = s.run := rfl
@[simp] theorem State.commit_fault : (s.commit n).fault = s.fault := rfl
@[simp] theorem State.commit_imem : (s.commit n).imem = s.imem := rfl
@[simp] theorem State.commit_dmem : (s.commit n).dmem = s.dmem := rfl
@[simp] theorem State.commit_codeEnd : (s.commit n).codeEnd = s.codeEnd := rfl
@[simp] theorem State.commit_trace : (s.commit n).trace = s.trace := rfl
@[simp] theorem State.commit_reg (r : Reg) : (s.commit n).reg r = s.reg r := rfl
end commit

section takeFault
variable (s : State) (f : FaultRecord)
@[simp] theorem State.takeFault_regs : (s.takeFault f).regs = s.regs := rfl
@[simp] theorem State.takeFault_pc : (s.takeFault f).pc = s.pc := rfl
@[simp] theorem State.takeFault_cycle : (s.takeFault f).cycle = s.cycle := rfl
@[simp] theorem State.takeFault_run : (s.takeFault f).run = .faulted := rfl
@[simp] theorem State.takeFault_fault : (s.takeFault f).fault = some f := rfl
@[simp] theorem State.takeFault_imem : (s.takeFault f).imem = s.imem := rfl
@[simp] theorem State.takeFault_dmem : (s.takeFault f).dmem = s.dmem := rfl
@[simp] theorem State.takeFault_codeEnd : (s.takeFault f).codeEnd = s.codeEnd := rfl
@[simp] theorem State.takeFault_trace : (s.takeFault f).trace = s.trace := rfl
@[simp] theorem State.takeFault_reg (r : Reg) : (s.takeFault f).reg r = s.reg r := rfl
end takeFault

section emit
variable (s : State) (x : TraceRecord)
@[simp] theorem State.emit_regs : (s.emit x).regs = s.regs := rfl
@[simp] theorem State.emit_pc : (s.emit x).pc = s.pc := rfl
@[simp] theorem State.emit_cycle : (s.emit x).cycle = s.cycle := rfl
@[simp] theorem State.emit_run : (s.emit x).run = s.run := rfl
@[simp] theorem State.emit_fault : (s.emit x).fault = s.fault := rfl
@[simp] theorem State.emit_imem : (s.emit x).imem = s.imem := rfl
@[simp] theorem State.emit_dmem : (s.emit x).dmem = s.dmem := rfl
@[simp] theorem State.emit_codeEnd : (s.emit x).codeEnd = s.codeEnd := rfl
@[simp] theorem State.emit_trace : (s.emit x).trace = x :: s.trace := rfl
@[simp] theorem State.emit_reg (r : Reg) : (s.emit x).reg r = s.reg r := rfl
end emit

section reset
@[simp] theorem State.reset_reg (r : Reg) : State.reset.reg r = 0#32 := by
  simp [State.reset, State.reg]
@[simp] theorem State.reset_pc : State.reset.pc = 128#32 := rfl
@[simp] theorem State.reset_cycle : State.reset.cycle = 1 := rfl
@[simp] theorem State.reset_run : State.reset.run = .faulted := rfl
@[simp] theorem State.reset_fault : State.reset.fault = some (.missingTerminator 128#32) := rfl
@[simp] theorem State.reset_imem : State.reset.imem = [] := rfl
@[simp] theorem State.reset_dmem : State.reset.dmem = [] := rfl
@[simp] theorem State.reset_codeEnd : State.reset.codeEnd = 0#32 := rfl
@[simp] theorem State.reset_trace : State.reset.trace = [] := rfl
end reset

/-- Two states with equal register reads have equal register files. -/
theorem State.regs_ext {s t : State} (h : ∀ r, s.reg r = t.reg r) : s.regs = t.regs := by
  apply Vector.ext
  intro i hi
  exact h ⟨i, hi⟩

end Sys2Proof.Machine
end

