-- ==== Sys2Proof/Laws/Exec.lean ====
section
/-! SUPPORT. What executing an instruction and taking a step can do, said once. -/

namespace Sys2Proof.Machine

/-- Everything SW can do. -/
theorem execSw_cases (rt : Reg) (offset : Word) (base : Reg) (s : State) :
    (execSw rt offset base s = .next
        ({ s with dmem := Memory.writeWord s.dmem (s.effectiveAddress base offset).toNat (s.reg rt) }.commit
          s.fallthrough) ∧
      (s.effectiveAddress base offset).toNat % 4 = 0) ∨
    (execSw rt offset base s = .next (s.takeFault (.unmappedAddress .store (s.effectiveAddress base offset))) ∧
      (s.effectiveAddress base offset).toNat % 4 ≠ 0) := by
  unfold execSw
  rcases memWrite_cases s.dmem (s.effectiveAddress base offset) (s.reg rt) with ⟨h, ha⟩ | ⟨h, ha⟩ <;> rw [h]
  · exact .inl ⟨rfl, ha⟩
  · exact .inr ⟨rfl, ha⟩

/-- Everything LW can do. -/
theorem execLw_cases (rt : Reg) (offset : Word) (base : Reg) (s : State) :
    (∃ v, execLw rt offset base s = .next ((s.setReg rt v).commit s.fallthrough) ∧
      (s.effectiveAddress base offset).toNat % 4 = 0 ∧
      Memory.readWord s.dmem (s.effectiveAddress base offset).toNat = some v) ∨
    (execLw rt offset base s = .next (s.takeFault (.unmappedAddress .load (s.effectiveAddress base offset))) ∧
      ((s.effectiveAddress base offset).toNat % 4 = 0 →
        Memory.readWord s.dmem (s.effectiveAddress base offset).toNat = none)) := by
  unfold execLw
  rcases memRead_cases s.dmem (s.effectiveAddress base offset) with ⟨v, h, ha, hr⟩ | ⟨h, ha⟩ <;> rw [h]
  · exact .inl ⟨v, rfl, ha, hr⟩
  · exact .inr ⟨rfl, ha⟩

/-- The five things executing an instruction can do: choose the next pc (J, BEQ, BGTZ), halt (BREAK), write its
destination register, store a word (SW), or take an UnmappedAddress fault (SW and LW). -/
theorem exec_cases (i : Instr) (s : State) :
    (∃ n, exec i s = .next (s.commit n) ∧
      ((∃ target, i = .j target ∧ n = target) ∨
       (∃ rs rt offset, i = .beq rs rt offset ∧
          n = if equalCondition (s.reg rs) (s.reg rt) then s.branchTarget offset else s.fallthrough) ∨
       (∃ rs offset, i = .bgtz rs offset ∧
          n = if positiveCondition (s.reg rs) then s.branchTarget offset else s.fallthrough))) ∨
    (i = .brk ∧ exec i s = .next { s with run := .halted }) ∨
    (∃ d v, destReg i = some d ∧ exec i s = .next ((s.setReg d v).commit s.fallthrough)) ∨
    (∃ rt offset base, i = .sw rt offset base ∧ (s.effectiveAddress base offset).toNat % 4 = 0 ∧
      exec i s = .next
        ({ s with dmem := Memory.writeWord s.dmem (s.effectiveAddress base offset).toNat (s.reg rt) }.commit
          s.fallthrough)) ∨
    (∃ rt offset base, i = .sw rt offset base ∧ (s.effectiveAddress base offset).toNat % 4 ≠ 0 ∧
      exec i s = .next (s.takeFault (.unmappedAddress .store (s.effectiveAddress base offset)))) ∨
    (∃ rt offset base, i = .lw rt offset base ∧
      ((s.effectiveAddress base offset).toNat % 4 = 0 →
        Memory.readWord s.dmem (s.effectiveAddress base offset).toNat = none) ∧
      exec i s = .next (s.takeFault (.unmappedAddress .load (s.effectiveAddress base offset)))) := by
  cases i
  case j target => exact .inl ⟨target, rfl, .inl ⟨target, rfl, rfl⟩⟩
  case beq rs rt offset => exact .inl ⟨_, rfl, .inr (.inl ⟨rs, rt, offset, rfl, rfl⟩)⟩
  case bgtz rs offset => exact .inl ⟨_, rfl, .inr (.inr ⟨rs, offset, rfl, rfl⟩)⟩
  case brk => exact .inr (.inl ⟨rfl, rfl⟩)
  case sw rt offset base =>
    rcases execSw_cases rt offset base s with ⟨h, ha⟩ | ⟨h, ha⟩
    · exact .inr (.inr (.inr (.inl ⟨rt, offset, base, rfl, ha, h⟩)))
    · exact .inr (.inr (.inr (.inr (.inl ⟨rt, offset, base, rfl, ha, h⟩))))
  case lw rt offset base =>
    rcases execLw_cases rt offset base s with ⟨v, h, _, _⟩ | ⟨h, ha⟩
    · exact .inr (.inr (.inl ⟨rt, v, rfl, h⟩))
    · exact .inr (.inr (.inr (.inr (.inr ⟨rt, offset, base, rfl, ha, h⟩))))
  all_goals exact .inr (.inr (.inl ⟨_, _, rfl, rfl⟩))

/-- Everything a step can do from a state it leaves in a next state. -/
theorem step_cases {s t : State} (h : step s = .next t) :
    (s.run ≠ .running ∧ t = s) ∨
    (s.run = .running ∧ ∃ f, s.ifetch s.pc = .error f ∧ t = s.takeFault f) ∨
    (s.run = .running ∧ ∃ w i u, s.ifetch s.pc = .ok w ∧ decode w = some i ∧ exec i s = .next u ∧
      t = if u.run = .faulted then u else u.emit (traceRecord s i u)) := by
  unfold step clock at h
  cases hr : s.run <;> rw [hr] at h
  · right
    simp only [runCycle] at h
    cases hf : s.ifetch s.pc with
    | error f => rw [hf] at h; exact .inl ⟨rfl, f, rfl, by simpa using h.symm⟩
    | ok w =>
      rw [hf] at h
      right
      cases hd : decode w with
      | none => simp [hd] at h
      | some i =>
        simp only [hd] at h
        cases he : exec i s with
        | next u =>
          rw [he] at h
          exact ⟨rfl, w, i, u, rfl, hd, he, by simpa [finishCycle] using h.symm⟩
        | fault r => rw [he] at h; simp [finishCycle] at h
        | refused r => rw [he] at h; simp [finishCycle] at h
  · exact .inl ⟨by simp, by simpa using h.symm⟩
  · exact .inl ⟨by simp, by simpa using h.symm⟩

/-- A step of a running machine whose fetch faults. -/
theorem step_of_fetch_error {s : State} {f : FaultRecord} (hr : s.run = .running) (hf : s.ifetch s.pc = .error f) :
    step s = .next (s.takeFault f) := by
  simp only [step, clock, hr, runCycle, hf]

/-- A step of a running machine whose fetched word decodes. -/
theorem step_of_decoded {s : State} {w : Word} {i : Instr} (hr : s.run = .running) (hf : s.ifetch s.pc = .ok w)
    (hd : decode w = some i) : step s = finishCycle s i (exec i s) := by
  simp only [step, clock, hr, runCycle, hf, hd]

/-- A step of a machine that is not running. -/
theorem step_of_not_running {s : State} (hr : s.run ≠ .running) : step s = .next s := by
  cases h : s.run
  · exact absurd h hr
  · simp only [step, clock, h]
  · simp only [step, clock, h]

/-- Executing an instruction neither reads nor writes the trace. -/
theorem exec_trace_irrelevant {i : Instr} {s u : State} (other : List TraceRecord) (he : exec i s = .next u) :
    u.trace = s.trace ∧ exec i { s with trace := other } = .next { u with trace := other } := by
  cases i
  case sw rt offset base =>
    have e : execSw rt offset base { s with trace := other } =
        match memWrite s.dmem (s.effectiveAddress base offset) (s.reg rt) with
        | .ok dmem => .next ({ s with dmem := dmem, trace := other }.commit s.fallthrough)
        | .error f => .next ({ s with trace := other }.takeFault f) := rfl
    change execSw rt offset base s = _ at he
    change _ ∧ execSw rt offset base _ = _
    rw [e]
    unfold execSw at he
    cases hm : memWrite s.dmem (s.effectiveAddress base offset) (s.reg rt) <;> rw [hm] at he <;> cases he <;>
      exact ⟨rfl, rfl⟩
  case lw rt offset base =>
    have e : execLw rt offset base { s with trace := other } =
        match memRead s.dmem (s.effectiveAddress base offset) with
        | .ok v => .next (({ s with trace := other }.setReg rt v).commit s.fallthrough)
        | .error f => .next ({ s with trace := other }.takeFault f) := rfl
    change execLw rt offset base s = _ at he
    change _ ∧ execLw rt offset base _ = _
    rw [e]
    unfold execLw at he
    cases hm : memRead s.dmem (s.effectiveAddress base offset) <;> rw [hm] at he <;> cases he <;> exact ⟨rfl, rfl⟩
  all_goals (cases he; exact ⟨rfl, rfl⟩)

/-- Placing a word: the machine then runs, and fetches that word at its pc. -/
theorem placeCode_fetch (s : State) (w : Word) :
    (s.placeCode w).run = .running ∧ (s.placeCode w).ifetch (s.placeCode w).pc = .ok w := by
  refine ⟨rfl, ?_⟩
  have ha : (s.placeCode w).pc.toNat % 4 = 0 ∧ 128 ≤ (s.placeCode w).pc.toNat := by
    simp only [State.placeCode]
    split
    · next h => exact (codeAddress_iff _).1 h
    · decide
  refine ifetch_of_codeWord ha.1 ha.2 ?_ (Memory.readWord_writeWord_same _ _ _)
  have e : (s.placeCode w).codeEnd =
      if s.codeEnd.toNat < (s.placeCode w).pc.toNat then (s.placeCode w).pc else s.codeEnd := rfl
  rw [e]
  split
  · exact Nat.le_refl _
  · next h => exact Nat.not_lt.1 h

end Sys2Proof.Machine
end

