-- ==== Sys2Proof/Laws/Load.lean ====
section
/-! SUPPORT. What the loader's steps can do, said once. -/

namespace Sys2Proof.Machine

/-- Word `n` of a loadable stream stands at 128 + 4n, without wrap. -/
theorem wordAddress_toNat {n : Nat} (h : n < 1073741792) : (wordAddress n).toNat = 128 + 4 * n := by
  show (BitVec.ofNat 32 (128 + 4 * n)).toNat = _
  rw [BitVec.toNat_ofNat]
  omega

/-- Everything one word can do to the loader. -/
theorem Loading.take_cases (l : Loading) (n : Nat) (w : Word) :
    (∃ a, l.codeEnd = some a ∧
      l.take n w = .ok { l with dmem := Memory.writeWord l.dmem (wordAddress n).toNat w }) ∨
    (l.codeEnd = none ∧ decode w = none ∧ l.take n w = .error (.unknownOpcode (wordAddress n) w)) ∨
    (l.codeEnd = none ∧ decode w = some .brk ∧
      l.take n w = .ok { l with
        imem := Memory.writeWord l.imem (wordAddress n).toNat w, codeEnd := some (wordAddress n) }) ∨
    (l.codeEnd = none ∧ plainCode w ∧
      l.take n w = .ok { l with imem := Memory.writeWord l.imem (wordAddress n).toNat w }) := by
  unfold Loading.take
  cases hc : l.codeEnd with
  | some a => exact .inl ⟨a, rfl, rfl⟩
  | none =>
    right
    cases hd : decode w with
    | none => exact .inl ⟨rfl, rfl, rfl⟩
    | some i =>
      right
      by_cases hi : i = .brk
      · subst hi; exact .inl ⟨rfl, rfl, rfl⟩
      · refine .inr ⟨rfl, ⟨i, hd, hi⟩, ?_⟩
        cases i <;> first | rfl | exact absurd rfl hi

/-- What reset makes of a load's result. -/
theorem resetWith_of_le {words : List Word} (h : words.length ≤ 1073741792) :
    resetWith words = .next (State.ofLoad (load words)) := by
  have hn : ¬ Config.maxWords < words.length := Nat.not_lt.2 h
  rw [resetWith, if_neg hn]

/-- Loading keeps the canonical form of both images. -/
theorem Loading.take_wf {l l' : Loading} {n : Nat} {w : Word} (hn : n < 1073741792)
    (hi : Memory.wf l.imem) (hd : Memory.wf l.dmem) (h : l.take n w = .ok l') :
    Memory.wf l'.imem ∧ Memory.wf l'.dmem := by
  have ha : (wordAddress n).toNat % 4 = 0 := by rw [wordAddress_toNat hn]; omega
  have hb : (wordAddress n).toNat < 4294967296 := (wordAddress n).isLt
  rcases l.take_cases n w with ⟨_, _, e⟩ | ⟨_, _, e⟩ | ⟨_, _, e⟩ | ⟨_, _, e⟩ <;> rw [e] at h <;> cases h
  · exact ⟨hi, Memory.writeWord_wf w hd ha hb⟩
  · exact ⟨Memory.writeWord_wf w hi ha hb, hd⟩
  · exact ⟨Memory.writeWord_wf w hi ha hb, hd⟩

end Sys2Proof.Machine
end

