-- ==== Sys2Proof/Laws/PerInstr.lean ====
section
/-! SUPPORT. Family RowMatch: the canonical word of every instruction carries its row's match value in its row's mask
(spec/opcode_table.json), one lemma per constructor. -/

namespace Sys2Proof

/-- The word `encode` builds for an instruction has, in the fixed bits of the instruction's opcode-table row, the row's
match value. -/
def Laws.RowMatch.Statement (i : Instr) : Prop := encode i &&& i.rowMask = i.rowMatch

/-- The fixed bits of the four concatenations the encoder builds. -/
theorem cat2_fixed (s : BitVec 3) (a b d : BitVec 5) (u : BitVec 11) :
    (0b110#3 ++ a ++ b ++ s ++ d ++ u) &&& (0xE0070000#32 : BitVec (3 + 5 + 5 + 3 + 5 + 11)) =
      (0b110#3 ++ 0#5 ++ 0#5 ++ s ++ 0#5 ++ 0#11) := by
  apply BitVec.eq_of_getLsbD_eq
  intro i hi
  simp only [BitVec.getLsbD_and, BitVec.getLsbD_append]
  interval_cases i <;> simp

theorem cat3_fixed (s : BitVec 3) (a b : BitVec 5) (k : BitVec 16) :
    (0b111#3 ++ a ++ b ++ s ++ k) &&& (0xE0070000#32 : BitVec (3 + 5 + 5 + 3 + 16)) =
      (0b111#3 ++ 0#5 ++ 0#5 ++ s ++ 0#16) := by
  apply BitVec.eq_of_getLsbD_eq
  intro i hi
  simp only [BitVec.getLsbD_and, BitVec.getLsbD_append]
  interval_cases i <;> simp

theorem cat1b_fixed (s : BitVec 3) (a b : BitVec 5) (k : BitVec 16) :
    (0b000#3 ++ s ++ a ++ b ++ k) &&& (0xFC000000#32 : BitVec (3 + 3 + 5 + 5 + 16)) =
      (0b000#3 ++ s ++ 0#5 ++ 0#5 ++ 0#16) := by
  apply BitVec.eq_of_getLsbD_eq
  intro i hi
  simp only [BitVec.getLsbD_and, BitVec.getLsbD_append]
  interval_cases i <;> simp

theorem cat1j_fixed (s : BitVec 3) (t : BitVec 26) :
    (0b000#3 ++ s ++ t) &&& (0xFC000000#32 : BitVec (3 + 3 + 26)) = (0b000#3 ++ s ++ 0#26) := by
  apply BitVec.eq_of_getLsbD_eq
  intro i hi
  simp only [BitVec.getLsbD_and, BitVec.getLsbD_append]
  interval_cases i <;> simp

namespace Laws.RowMatch

theorem j (target : Word) : Statement (.j target) := (cat1j_fixed _ _).trans rfl
theorem beq (rs rt : Reg) (offset : Word) : Statement (.beq rs rt offset) := (cat1b_fixed _ _ _ _).trans rfl
theorem bgtz (rs : Reg) (offset : Word) : Statement (.bgtz rs offset) := (cat1b_fixed _ _ _ _).trans rfl
theorem brk : Statement .brk := (cat1j_fixed _ _).trans rfl
theorem sw (rt : Reg) (offset : Word) (base : Reg) : Statement (.sw rt offset base) :=
  (cat1b_fixed _ _ _ _).trans rfl
theorem lw (rt : Reg) (offset : Word) (base : Reg) : Statement (.lw rt offset base) :=
  (cat1b_fixed _ _ _ _).trans rfl
theorem add (rd rs rt : Reg) : Statement (.add rd rs rt) := (cat2_fixed _ _ _ _ _).trans rfl
theorem sub (rd rs rt : Reg) : Statement (.sub rd rs rt) := (cat2_fixed _ _ _ _ _).trans rfl
theorem mul (rd rs rt : Reg) : Statement (.mul rd rs rt) := (cat2_fixed _ _ _ _ _).trans rfl
theorem and (rd rs rt : Reg) : Statement (.and rd rs rt) := (cat2_fixed _ _ _ _ _).trans rfl
theorem or (rd rs rt : Reg) : Statement (.or rd rs rt) := (cat2_fixed _ _ _ _ _).trans rfl
theorem xor (rd rs rt : Reg) : Statement (.xor rd rs rt) := (cat2_fixed _ _ _ _ _).trans rfl
theorem nor (rd rs rt : Reg) : Statement (.nor rd rs rt) := (cat2_fixed _ _ _ _ _).trans rfl
theorem addi (rt rs : Reg) (imm : Word) : Statement (.addi rt rs imm) := (cat3_fixed _ _ _ _).trans rfl
theorem andi (rt rs : Reg) (imm : Word) : Statement (.andi rt rs imm) := (cat3_fixed _ _ _ _).trans rfl
theorem ori (rt rs : Reg) (imm : Word) : Statement (.ori rt rs imm) := (cat3_fixed _ _ _ _).trans rfl
theorem xori (rt rs : Reg) (imm : Word) : Statement (.xori rt rs imm) := (cat3_fixed _ _ _ _).trans rfl

end Laws.RowMatch

end Sys2Proof
end

