-- ==== Sys2Proof/Tests/Slice0.lean ====
section
/-! SUPPORT. Tests of the model: ill-formed terms refused, one word per constructor from the spec's encodings, one or two
steps per instruction with results from 95_test_vectors.md, and a witness for the hypotheses of each statement. -/

namespace Sys2Proof.Tests

open Sys2Proof.Machine

/-! ### A small state and what a test looks at -/

/-- A running machine at `pc` with some registers set and a data memory, the others as at reset. -/
def running (pc : Word) (regs : List (Reg × Word)) (dmem : Memory) : State :=
  regs.foldl (fun s p => s.setReg p.1 p.2)
    { State.reset with pc := pc, run := .running, fault := none, dmem := dmem }

/-- A running machine with words of code from 128 on, its `CODE_END` at the last of them. -/
def coded (pc : Word) (code : List Word) (regs : List (Reg × Word)) (dmem : Memory) : State :=
  { running pc regs dmem with
    imem := (code.foldl (fun (p : Nat × Memory) w => (p.1 + 4, Memory.writeWord p.2 p.1 w)) (128, [])).2
    codeEnd := BitVec.ofNat 32 (124 + 4 * code.length) }

/-- A field of the next state, if there is one. -/
def look {α : Type} (o : Host.Outcome State Fault Refusal) (f : State → α) : Option α :=
  match o with
  | .next t => some (f t)
  | .fault _ => none
  | .refused _ => none

/-- A data memory of one word. -/
def oneWord (a : Nat) (w : Word) : Memory := Memory.writeWord [] a w

/-! ### WellFormed: an ill-formed term for each check (R104) -/

theorem test_wf_target_too_large : (Instr.j 268435456).wellFormed = false := by decide
theorem test_wf_target_not_multiple : (Instr.j 130).wellFormed = false := by decide
theorem test_wf_target_largest : (Instr.j 268435452).wellFormed = true := by decide
theorem test_wf_branch_too_low : (Instr.beq 1 2 (-131076)).wellFormed = false := by decide
theorem test_wf_branch_too_high : (Instr.bgtz 1 131072).wellFormed = false := by decide
theorem test_wf_branch_not_multiple : (Instr.beq 1 2 6).wellFormed = false := by decide
theorem test_wf_imm_too_low : (Instr.addi 1 2 (-32769)).wellFormed = false := by decide
theorem test_wf_offset_too_high : (Instr.sw 1 32768 2).wellFormed = false := by decide
theorem test_wf_offset_need_not_be_a_multiple : (Instr.lw 2 138 1).wellFormed = true := by decide

/-! ### Decoding: words written out bit by bit from the formats of R72 and the opcodes of R74 to R76 -/

-- major 000, sub-opcode 000, target26 = 33 (R121's example)
theorem test_decode_j : decode 0b000_000_00000000000000000000100001#32 = some (.j 132) := by decide
-- 95 V2: the largest target
theorem test_decode_j_largest : decode 0x03FFFFFF#32 = some (.j 268435452) := by decide
-- major 000, sub-opcode 010, rs 1, rt 2, imm16 = 2
theorem test_decode_beq : decode 0b000_010_00001_00010_0000000000000010#32 = some (.beq 1 2 8) := by decide
-- 95 V2: the lowest offset
theorem test_decode_beq_lowest : decode 0x0BFF8000#32 = some (.beq 31 31 (-131072)) := by decide
-- major 000, sub-opcode 100, rs 5, unused, imm16 = -3
theorem test_decode_bgtz : decode 0b000_100_00101_00000_1111111111111101#32 = some (.bgtz 5 (-12)) := by decide
-- 95 V2: BGTZ ignores instr[20:16]
theorem test_decode_bgtz_unused : decode 0x103F0001#32 = some (.bgtz 1 4) := by decide
-- major 000, sub-opcode 101
theorem test_decode_break : decode 0b000_101_00000000000000000000000000#32 = some .brk := by decide
-- 95 V2: BREAK ignores instr[25:0]
theorem test_decode_break_unused : decode 0x17FFFFFF#32 = some .brk := by decide
-- major 000, sub-opcode 110, base 6, rt 5, imm16 = -4
theorem test_decode_sw : decode 0b000_110_00110_00101_1111111111111100#32 = some (.sw 5 (-4) 6) := by decide
-- major 000, sub-opcode 111, base 3, rt 4, imm16 = 0
theorem test_decode_lw : decode 0b000_111_00011_00100_0000000000000000#32 = some (.lw 4 0 3) := by decide
-- major 110, rs 2, rt 3, sub-opcode, rd 1, unused
theorem test_decode_add : decode 0b110_00010_00011_000_00001_00000000000#32 = some (.add 1 2 3) := by decide
theorem test_decode_sub : decode 0b110_00010_00011_001_00001_00000000000#32 = some (.sub 1 2 3) := by decide
theorem test_decode_mul : decode 0b110_00010_00011_010_00001_00000000000#32 = some (.mul 1 2 3) := by decide
theorem test_decode_and : decode 0b110_00010_00011_011_00001_00000000000#32 = some (.and 1 2 3) := by decide
theorem test_decode_or : decode 0b110_00010_00011_100_00001_00000000000#32 = some (.or 1 2 3) := by decide
theorem test_decode_xor : decode 0b110_00010_00011_101_00001_00000000000#32 = some (.xor 1 2 3) := by decide
theorem test_decode_nor : decode 0b110_00010_00011_110_00001_00000000000#32 = some (.nor 1 2 3) := by decide
-- 95 V2: Category 2 ignores instr[10:0]
theorem test_decode_add_unused : decode 0xC2180FFF#32 = some (.add 1 2 3) := by decide
-- major 111, rs 0 or 1, rt, sub-opcode, imm16
theorem test_decode_addi : decode 0b111_00000_00001_000_0000000000000101#32 = some (.addi 1 0 5) := by decide
theorem test_decode_andi : decode 0b111_00001_00010_001_0000000011111111#32 = some (.andi 2 1 255) := by decide
theorem test_decode_ori : decode 0b111_00001_00010_010_1111111100000000#32 = some (.ori 2 1 (-256)) := by decide
theorem test_decode_xori : decode 0b111_00001_00010_011_1111111111111111#32 = some (.xori 2 1 (-1)) := by decide
-- 90 C1: the source's mistaken BREAK example
theorem test_decode_c1_illegal : decode 0x05000000#32 = none := by decide
theorem test_decode_illegal_majors : [0x20000000#32, 0x40000000#32, 0x60000000#32, 0x80000000#32, 0xA0000000#32].all
    (fun w => decode w == none) = true := by decide
theorem test_decode_illegal_subs : [0x0C000000#32, 0xDFFFFFFF#32, 0xE0050000#32, 0xE0060000#32, 0xFFFFFFFF#32].all
    (fun w => decode w == none) = true := by decide

/-! ### Encoding and the codec (R101, R102, R109) -/

theorem test_encode_bgtz : encode (.bgtz 1 (-12)) = 0x1020FFFD#32 := by decide
theorem test_encode_nor : encode (.nor 5 2 0) = 0xC2062800#32 := by decide
theorem test_field_of_add : (field 0xC2180800#32 3 8).toNat = 2 ∧ (field 0xC2180800#32 8 13).toNat = 3 ∧
    (field 0xC2180800#32 16 21).toNat = 1 := by decide
-- R6: the conversion table of the source's ranges
theorem test_field_is_the_slice (w : Word) : field w 0 3 = w.extractLsb' 29 3 ∧ field w 3 6 = w.extractLsb' 26 3 ∧
    field w 6 32 = w.extractLsb' 0 26 ∧ field w 6 11 = w.extractLsb' 21 5 ∧ field w 11 16 = w.extractLsb' 16 5 ∧
    field w 16 32 = w.extractLsb' 0 16 ∧ field w 3 8 = w.extractLsb' 24 5 ∧ field w 8 13 = w.extractLsb' 19 5 ∧
    field w 13 16 = w.extractLsb' 16 3 ∧ field w 16 21 = w.extractLsb' 11 5 ∧ field w 21 32 = w.extractLsb' 0 11 :=
  ⟨rfl, rfl, rfl, rfl, rfl, rfl, rfl, rfl, rfl, rfl, rfl⟩
-- 95 V1
theorem test_signedValue_one_bit : signedValue 0b1#1 = -1 ∧ signedValue 0b0#1 = 0 := by decide
theorem test_signedValue_18_bits : signedValue 0b111111111111110100#18 = -12 ∧
    signedValue 0b011111111111111100#18 = 131068 := by decide
theorem test_table_word_j : decodeTableWord 32 0x21 = some (.j 132) := by decide
theorem test_bytes_truncated : decodeBytes [0#8, 0#8, 0#8] = .error .truncated := by rfl

/-! ### One step each (95 V3 to V6) -/

theorem test_j : look (exec (.j 128) (running 4000 [] [])) (fun t => (t.pc, t.cycle)) = some (128, 2) := by decide
theorem test_beq_taken : look (exec (.beq 1 2 8) (running 128 [(1, 3), (2, 3)] [])) State.pc = some 140 := by decide
theorem test_beq_not_taken : look (exec (.beq 1 2 8) (running 128 [(1, 3), (2, 4)] [])) State.pc = some 132 := by decide
theorem test_bgtz_backwards : look (exec (.bgtz 1 (-12)) (running 140 [(1, 4)] [])) State.pc = some 132 := by decide
theorem test_bgtz_most_negative : look (exec (.bgtz 1 4) (running 136 [(1, 0x80000000)] [])) State.pc = some 140 := by
  decide
theorem test_break : look (exec .brk (running 132 [] [])) (fun t => (t.run, t.pc, t.cycle)) = some (.halted, 132, 1) := by
  decide
theorem test_sw_wraps : look (exec (.sw 1 0 1) (running 128 [(1, -4)] []))
    (fun t => Memory.readWord t.dmem 0xFFFFFFFC) = some (some 0xFFFFFFFC) := by decide
theorem test_sw_misaligned : look (exec (.sw 1 138 0) (running 132 [(1, 7)] (oneWord 140 1)))
    (fun t => (t.run, t.fault, t.pc)) = some (.faulted, some (.unmappedAddress .store 138), 132) := by decide
theorem test_lw_base_is_destination : look (exec (.lw 3 0 3) (running 128 [(3, 140)] (oneWord 140 9)))
    (fun t => t.reg 3) = some 9 := by decide
theorem test_lw_unmapped : look (exec (.lw 2 200 0) (running 132 [] (oneWord 140 1)))
    (fun t => (t.run, t.fault, t.reg 2)) = some (.faulted, some (.unmappedAddress .load 200), 0) := by decide
theorem test_add_wraps : look (exec (.add 1 2 3) (running 128 [(2, 0x80000000), (3, 0xFFFFFFFF)] []))
    (fun t => (t.reg 1, t.pc)) = some (0x7FFFFFFF, 132) := by decide
theorem test_add_same_register_zero : look (exec (.add 0 0 0) (running 128 [(0, 9)] [])) (fun t => t.reg 0) = some 18 := by
  decide
theorem test_sub_order : look (exec (.sub 1 2 3) (running 128 [(2, 1), (3, 2)] [])) (fun t => t.reg 1) =
    some 0xFFFFFFFF := by decide
theorem test_mul_negative : look (exec (.mul 1 2 3) (running 128 [(2, 5), (3, 0xFFFFFFFD)] [])) (fun t => t.reg 1) =
    some 0xFFFFFFF1 := by decide
theorem test_mul_wraps : look (exec (.mul 1 2 3) (running 128 [(2, 0x12345678), (3, 0x0F0F0F0F)] []))
    (fun t => t.reg 1) = some 0x3B2A1908 := by decide
theorem test_and : look (exec (.and 1 2 3) (running 128 [(2, 0x12345678), (3, 0x0F0F0F0F)] []))
    (fun t => t.reg 1) = some 0x02040608 := by decide
theorem test_or : look (exec (.or 1 2 3) (running 128 [(2, 0x12345678), (3, 0x0F0F0F0F)] []))
    (fun t => t.reg 1) = some 0x1F3F5F7F := by decide
theorem test_xor : look (exec (.xor 1 2 3) (running 128 [(2, 0x12345678), (3, 0x0F0F0F0F)] []))
    (fun t => t.reg 1) = some 0x1D3B5977 := by decide
theorem test_nor : look (exec (.nor 1 2 3) (running 128 [(2, 0x12345678), (3, 0x0F0F0F0F)] []))
    (fun t => t.reg 1) = some 0xE0C0A080 := by decide
theorem test_addi : look (exec (.addi 2 1 (-32768)) (running 128 [(1, 0xFFFFFFFF)] [])) (fun t => t.reg 2) =
    some 0xFFFF7FFF := by decide
theorem test_andi_sign_extends : look (exec (.andi 2 1 (-1)) (running 128 [(1, 0x12345678)] [])) (fun t => t.reg 2) =
    some 0x12345678 := by decide
theorem test_ori_sign_extends : look (exec (.ori 2 1 (-256)) (running 128 [(1, 0x12345678)] [])) (fun t => t.reg 2) =
    some 0xFFFFFF78 := by decide
theorem test_xori : look (exec (.xori 2 1 32767) (running 128 [(1, 0x12345678)] [])) (fun t => t.reg 2) =
    some 0x12342987 := by decide

/-! ### Cycle, load, text (95 S2, S7, V7, V8) -/

theorem test_break_only_program : look (step (coded 128 [0x14000000#32] [] []))
    (fun t => decide (t.run = .halted ∧ t.pc = 128#32 ∧ t.cycle = 1)) = some true := by decide
theorem test_break_only_record : look (step (coded 128 [0x14000000#32] [] []))
    (fun t => t.trace.map (fun r => decide (r.pc = 128#32 ∧ r.cycle = 1 ∧ r.instr = .brk))) = some [true] := by decide
theorem test_fetch_above_code_end : look (step (coded 136 [0x00000022#32, 0x14000000#32] [] (oneWord 136 0xE0080005)))
    (fun t => (t.fault, t.pc, t.trace.length)) = some (some (.unmappedAddress .fetch 136), 136, 0) := by decide
theorem test_fetch_below_128 : look (step (coded 0 [0x14000000#32] [] [])) (fun t => t.fault) =
    some (some (.unmappedAddress .fetch 0)) := by decide
theorem test_load_shape : look (resetWith [0xE0080005#32, 0x14000000#32, 0x14000000#32, 0xFFFFFFFF#32])
    (fun t => decide (t.run = .running ∧ t.codeEnd = 132#32 ∧ Memory.readWord t.imem 132 = some 0x14000000#32 ∧
      Memory.readWord t.dmem 136 = some 0x14000000#32 ∧ Memory.readWord t.dmem 140 = some 0xFFFFFFFF#32 ∧
      Memory.readWord t.dmem 132 = none)) = some true := by decide
theorem test_load_unknown_opcode : look (resetWith [0xE0080005#32, 0x20000000#32, 0x14000000#32]) State.fault =
    some (some (.unknownOpcode 132 0x20000000)) := by decide
theorem test_load_empty : look (resetWith []) State.fault = some (some (.missingTerminator 128)) := by decide
theorem test_text_31_characters : parseLine ['0', '1', '0'] = none := by decide
theorem test_text_break : parseLine (lineOfWord 0x14000000#32) = some 0x14000000#32 := by decide
theorem test_place_runs_first : look (step (State.reset.withFetchWord 32 0xE0080005)) (fun t => (t.reg 1, t.pc)) =
    some (5, 132) := by decide
theorem test_undecodable_code_stops : step (coded 128 [0x05000000#32] [] []) =
    .fault (.undecodableCode 128 0x05000000) := by rfl
theorem test_status_of_store_fault :
    (State.takeFault State.reset (.unmappedAddress .store 138)).status =
      ⟨.faulted, 4#3, 3#2, some 138, none⟩ := by decide
theorem test_trace_output : (look (step (coded 128 [0x14000000#32] [] []))
    (fun t => (traceOutput (coded 128 [0x14000000#32] [] []) t).map (fun r => (r.text, r.cycle)))) =
    some (some ("BREAK", 1)) := by decide

/-! ### Memory -/

theorem test_write_keeps_order : Memory.writeWord (oneWord 140 1) 136 0x01020304 =
    [(136, 1), (137, 2), (138, 3), (139, 4), (140, 0), (141, 0), (142, 0), (143, 1)] := by decide
theorem test_wf_rejects_unordered : ¬ Memory.wf [(4, 0), (3, 0)] := by decide
theorem test_wf_rejects_half_word : ¬ Memory.wf [(4, 0), (5, 0)] := by decide
theorem test_wf_one_word : Memory.wf (oneWord 140 1) := by decide

/-! ### Witnesses: the hypotheses of each statement can be met, at the edges of its clauses -/

theorem witness_EncodeAndDecodeAreInverse :
    (Instr.j 268435452).wellFormed = true ∧ (Instr.beq 31 0 (-131072)).wellFormed = true ∧
    (Instr.lw 31 32767 31).wellFormed = true ∧ (Instr.xori 0 31 (-32768)).wellFormed = true ∧
    decode 0xDFFEFFFF#32 = some (.nor 31 31 31) := by decide
theorem witness_DecodedOperandsAreInRange : decode 0x1BFFFFFF#32 = some (.sw 31 (-1) 31) := by decide
theorem witness_UnusedBitsAreIgnored : decode 0x14000000#32 = some .brk ∧
    0x17FFFFFF#32 &&& Instr.brk.usedBits = 0x14000000#32 &&& Instr.brk.usedBits := by decide
theorem witness_SignedValueIsTwosComplement :
    (31 < 32) ∧ (-2 ^ 15 ≤ (-32768 : Int)) ∧ ((-32768 : Int) ≤ 2 ^ 15 - 1) ∧ (-2 ^ 0 ≤ (-1 : Int)) ∧
    ((-1 : Int) ≤ 2 ^ 0 - 1) := by decide
theorem witness_BytesDecodeAsTheirWord : ([1#8, 2#8, 3#8] : List Byte).length < 4 := by decide
theorem witness_DecoderBlockOutputs : decode 0xE108FFFF#32 = some (.addi 1 1 (-1)) ∧
    rsField (.addi 1 1 (-1)) = some 1 ∧ rtField (.addi 1 1 (-1)) = some 1 ∧
    operandField (.addi 1 1 (-1)) = some (-1) ∧ decode 0xDEE8F800#32 = some (.add 31 30 29) ∧
    rdField (.add 31 30 29) = some 31 := by decide

/-- The BREAK alone is a stream whose first BREAK is at 0; with a word before and one after it, at 1. -/
theorem witness_LoadPlacesTheStream :
    ([0x14000000#32] : List Word).length ≤ 1073741792 ∧ firstBreakAt [0x14000000#32] 0 ∧
    firstBreakAt [0xE0080005#32, 0x14000000#32, 0x20000000#32] 1 := by
  refine ⟨by decide, ⟨⟨0x14000000#32, rfl, by decide⟩, fun j w h _ => absurd h (Nat.not_lt_zero j)⟩,
    ⟨⟨0x14000000#32, rfl, by decide⟩, fun j w h hw => ?_⟩⟩
  have : j = 0 := by omega
  subst this
  have : w = 0xE0080005#32 := by simpa using hw.symm
  subst this
  exact ⟨.addi 1 0 5, by decide, by decide⟩

theorem witness_LoadFailsAsTheRulesSay :
    (([0x20000000#32] : List Word)[0]? = some 0x20000000#32 ∧ decode 0x20000000#32 = none) ∧
    (∀ w ∈ ([0xE0080005#32] : List Word), plainCode w) ∧
    load [0x20000000#32] = .error (.unknownOpcode 128 0x20000000) := by
  refine ⟨⟨rfl, by decide⟩, fun w hw => ?_, by rfl⟩
  have : w = 0xE0080005#32 := by simpa using hw
  subst this
  exact ⟨.addi 1 0 5, by decide, by decide⟩
theorem witness_ResetAfterSuccessfulLoad : ([0x14000000#32] : List Word).length ≤ 1073741792 ∧
    load [0x14000000#32] = .ok ⟨oneWord 128 0x14000000, [], 128⟩ := ⟨by decide, by rfl⟩
theorem witness_ResetAfterFailedLoad : ([] : List Word).length ≤ 1073741792 ∧
    load [] = .error (.missingTerminator 128) := ⟨by decide, by rfl⟩
theorem witness_LongerStreamIsRefused :
    ([] : List Word).length ≤ (2 ^ 32 - 128) / 4 ∧
    (List.replicate 1073741792 (0#32 : Word)).length ≤ (2 ^ 32 - 128) / 4 ∧
    (2 ^ 32 - 128) / 4 < (List.replicate 1073741793 (0#32 : Word)).length ∧
    (2 ^ 32 - 128) / 4 < (List.replicate 1073741793 ([] : List Char)).length := by
  refine ⟨by decide, ?_, ?_, ?_⟩
  · rw [List.length_replicate]; decide
  · rw [List.length_replicate]; decide
  · rw [List.length_replicate]; decide
theorem witness_MalformedLineEndsTheLoad :
    (∀ a w, load [0xE0080005#32] ≠ .error (.unknownOpcode a w)) ∧ parseLine ['2'] = none := by
  refine ⟨fun a w h => ?_, by decide⟩
  have e : load [0xE0080005#32] = .error (.missingTerminator 132) := by rfl
  rw [e] at h
  cases h

/-- A running machine at `CODE_END`, its code the one word BREAK; and one at 128, the lowest code address. -/
theorem witness_StepRunsTheDecodedInstruction :
    let s := coded 132 [0xE0080005#32, 0x14000000#32] [] []
    s.run = .running ∧ s.pc.toNat % 4 = 0 ∧ 128 ≤ s.pc.toNat ∧ s.pc.toNat ≤ s.codeEnd.toNat ∧
    Memory.readWord s.imem s.pc.toNat = some 0x14000000#32 ∧ decode 0x14000000#32 = some .brk ∧
    exec .brk s = .next { s with run := .halted } ∧ ({ s with run := .halted } : State).run ≠ .faulted :=
  ⟨rfl, by decide, by decide, by decide, by decide, by decide, rfl, by decide⟩
theorem witness_StepRunsTheDecodedInstruction_faulting :
    let s := coded 128 [0x1C0200C8#32] [] []
    s.run = .running ∧ s.pc.toNat % 4 = 0 ∧ 128 ≤ s.pc.toNat ∧ s.pc.toNat ≤ s.codeEnd.toNat ∧
    Memory.readWord s.imem s.pc.toNat = some 0x1C0200C8#32 ∧ decode 0x1C0200C8#32 = some (.lw 2 200 0) ∧
    exec (.lw 2 200 0) s = .next (s.takeFault (.unmappedAddress .load 200)) ∧
    (s.takeFault (.unmappedAddress .load 200)).run = .faulted :=
  ⟨rfl, by decide, by decide, by decide, by decide, by decide, rfl, rfl⟩
theorem witness_FetchOutsideTheCodeRegionFaults :
    ((coded 130 [0x14000000#32] [] []).run = .running ∧ (coded 130 [0x14000000#32] [] []).pc.toNat % 4 ≠ 0) ∧
    (coded 124 [0x14000000#32] [] []).pc.toNat < 128 ∧
    (coded 132 [0x14000000#32] [] []).codeEnd.toNat < (coded 132 [0x14000000#32] [] []).pc.toNat := by decide
theorem witness_HaltedAndFaultedHaveNoStep :
    State.reset.run = .faulted ∧ ({ State.reset with run := .halted } : State).run = .halted := ⟨rfl, rfl⟩
theorem witness_FaultingCycleChangesOnlyRunAndFault :
    let s := coded 132 [0x14000000#32] [] []
    s.run = .running ∧ step s = .next (s.takeFault (.unmappedAddress .fetch 132)) ∧
    (s.takeFault (.unmappedAddress .fetch 132)).run = .faulted := ⟨rfl, rfl, rfl⟩
theorem witness_CompletedCycleEmitsOneRecord :
    let s := coded 128 [0x14000000#32] [] []
    s.run = .running ∧ ∃ t, step s = .next t ∧ t.run ≠ .faulted := ⟨rfl, _, rfl, by decide⟩
theorem witness_StoresNeverReachTheFetch :
    let s := coded 128 [0x18620000#32, 0x14000000#32] [(2, 7), (3, 128)] []
    (∃ t, exec (.sw 2 0 3) s = .next t) ∧ ∃ t, step s = .next t := ⟨⟨_, rfl⟩, ⟨_, rfl⟩⟩
theorem witness_OnlyBreakHalts : (running 128 [] []).run = .running ∧
    ∃ t, exec .brk (running 128 [] []) = .next t ∧ t.run = .halted := ⟨rfl, _, rfl, rfl⟩
theorem witness_TraceIsObservationOnly : ∃ t, step (coded 128 [0x14000000#32] [] []) = .next t := ⟨_, rfl⟩
theorem witness_DataImageReachesOnlyLoads : (∀ rt offset base, Instr.sw 2 0 3 ≠ .lw rt offset base) ∧
    ∃ t, exec (.sw 2 0 3) (running 128 [(3, 128)] []) = .next t := ⟨by simp, _, rfl⟩
theorem witness_PlacedWordIsTheNextRun : decodeTableWord 32 0x14000000 = some .brk ∧
    ∃ t, exec .brk (State.reset.withFetchWord 32 0x14000000) = .next t := ⟨by decide, _, rfl⟩

/-- A running machine whose code is the one word BREAK satisfies the invariant, so its statements are not about reset
alone; it steps. -/
theorem witness_Inv_running :
    let s := coded 128 [0x14000000#32] [] []
    s.Inv ∧ s.run = .running ∧ ∃ t, step s = .next t := by
  refine ⟨⟨by decide, by decide, .inr ⟨by decide, by decide, ?_, ?_⟩, by decide, ⟨by decide, by decide⟩, by decide,
    by decide, by decide⟩, rfl, _, rfl⟩
  · intro a ha
    have e : (coded 128 [0x14000000#32] [] []).codeEnd.toNat = 128 := by decide
    have hm : (coded 128 [0x14000000#32] [] []).imem = oneWord 128 0x14000000 := by rfl
    rw [e, hm, oneWord, Memory.readWord_writeWord [] _ (by decide) ha]
    constructor
    · intro h
      split at h
      · next h' => omega
      · simp [Memory.readWord, Memory.readByte] at h
    · intro h
      rw [if_pos (by omega)]; rfl
  · intro a w ha hw
    have hm : (coded 128 [0x14000000#32] [] []).imem = oneWord 128 0x14000000 := by rfl
    rw [hm, oneWord, Memory.readWord_writeWord [] _ (by decide) ha] at hw
    split at hw
    · next h' =>
      cases hw
      exact ⟨.brk, by decide, ⟨fun _ => BitVec.eq_of_toNat_eq h', fun _ => rfl⟩⟩
    · simp [Memory.readWord, Memory.readByte] at hw
theorem witness_LoadedMachineSatisfiesInv : ∃ s, resetWith [0x14000000#32] = .next s := ⟨_, rfl⟩
/-- An ADDI before the BREAK: the invariant holds and the ADDI, which neither branches nor halts, completes. -/
theorem witness_FallthroughStaysInTheCodeRegion :
    let s := coded 128 [0xE0080005#32, 0x14000000#32] [] []
    s.Inv ∧ s.run = .running ∧ Memory.readWord s.imem s.pc.toNat = some 0xE0080005#32 ∧
    decode 0xE0080005#32 = some (.addi 1 0 5) ∧ ∃ t, step s = .next t ∧ t.run ≠ .faulted := by
  have e : (coded 128 [0xE0080005#32, 0x14000000#32] [] []).codeEnd = 132#32 := by rfl
  have hm : (coded 128 [0xE0080005#32, 0x14000000#32] [] []).imem =
      Memory.writeWord (oneWord 128 0xE0080005#32) 132 0x14000000#32 := by rfl
  have hr : ∀ a : Word, a.toNat % 4 = 0 →
      Memory.readWord (Memory.writeWord (oneWord 128 0xE0080005#32) 132 0x14000000#32) a.toNat =
        if a.toNat = 132 then some 0x14000000#32 else if a.toNat = 128 then some 0xE0080005#32 else none := by
    intro a ha
    rw [oneWord, Memory.readWord_writeWord _ _ (by decide) ha, Memory.readWord_writeWord _ _ (by decide) ha]
    rfl
  refine ⟨⟨by decide, by decide, .inr ⟨by decide, by decide, ?_, ?_⟩, by decide, ⟨by decide, by decide⟩, by decide,
    by decide, by decide⟩, rfl, by decide, by decide, _, rfl, by decide⟩
  · intro a ha
    rw [hm, hr a ha, e]
    have : (132#32 : Word).toNat = 132 := by decide
    split
    · next h => simp [h]
    · split
      · next h => simp [h]
      · simp; omega
  · intro a w ha hw
    rw [hm, hr a ha] at hw
    rw [e]
    split at hw
    · next h => cases hw; exact ⟨.brk, by decide, fun _ => BitVec.eq_of_toNat_eq h, fun _ => rfl⟩
    · split at hw
      · next h =>
        cases hw
        exact ⟨.addi 1 0 5, by decide, fun h => (by cases h), fun h' => by rw [h'] at h; exact absurd h (by decide)⟩
      · cases hw
theorem witness_BreakRule :
    let s := coded 128 [0x14000000#32] [] []
    s.run = .running ∧ s.ifetch s.pc = .ok 0x14000000#32 ∧ decode 0x14000000#32 = some .brk := ⟨rfl, rfl, by decide⟩
theorem witness_FaultingCycle_load_and_store :
    let s := coded 128 [0x1C0200C8#32] [] []
    let u := coded 128 [0x18020081#32] [] []
    step s = .next (s.takeFault (.unmappedAddress .load 200)) ∧
    step u = .next (u.takeFault (.unmappedAddress .store 129)) := ⟨rfl, rfl⟩
theorem witness_ReachedStatesSatisfyTheInvariants :
    ∃ images s0 s, load [0xE0080005#32, 0x14000000#32] = .ok images ∧
      resetWith [0xE0080005#32, 0x14000000#32] = .next s0 ∧
      Host.Core.run Sys2Proof.core 2 s0 = .next s ∧ State.run s = .halted := ⟨_, _, _, rfl, rfl, rfl, rfl⟩
theorem witness_RunEmitsRecordsNumberedFromOne :
    ∃ s0 s t, resetWith [0xE0080005#32, 0x14000000#32] = .next s0 ∧
      Host.Core.run Sys2Proof.core 1 s0 = .next s ∧ State.run s = .running ∧
      Host.Core.run Sys2Proof.core 3 s0 = .next t ∧ State.run t = .halted := ⟨_, _, _, rfl, rfl, rfl, rfl, rfl⟩
theorem witness_NextPcIsThatOfTheTable : (running 128 [] []).run = .running ∧
    (∃ t, exec (.lw 2 200 0) (running 128 [] []) = .next t ∧ t.run = .faulted) ∧
    (∃ t, exec (.add 1 2 3) (running 128 [] []) = .next t ∧ destReg (.add 1 2 3) = some 1 ∧ t.run ≠ .faulted) ∧
    (∃ t, exec (.sw 1 144 0) (running 128 [] []) = .next t ∧ t.run ≠ .faulted) :=
  ⟨rfl, ⟨_, rfl, rfl⟩, ⟨_, rfl, rfl, by decide⟩, ⟨_, rfl, by decide⟩⟩
theorem witness_BranchIfEqualRule : (running 128 [(1, 3), (2, 3)] []).reg 1 = (running 128 [(1, 3), (2, 3)] []).reg 2 ∧
    (running 128 [(1, 3)] []).reg 1 ≠ (running 128 [(1, 3)] []).reg 2 := by decide
theorem witness_BranchIfGreaterThanZeroRule : 0 < ((running 128 [(1, 0x7FFFFFFF)] []).reg 1).toInt ∧
    0 < ((running 128 [(1, 1)] []).reg 1).toInt ∧ (running 128 [] []).reg 1 = 0#32 ∧
    ((running 128 [(1, 0x80000000)] []).reg 1).getLsbD 31 = true := by decide
theorem witness_EffectiveAddressRule : decode 0x1C018000#32 = some (.lw 1 (-32768) 0) ∧
    decode 0x18C5FFFC#32 = some (.sw 5 (-4) 6) ∧ (∃ t, exec (.sw 1 0 0) (running 128 [(0, 8)] []) = .next t) ∧
    (∃ t, exec (.lw 1 0 0) (running 128 [(0, 140)] (oneWord 140 9)) = .next t) ∧ (1 : Reg) ≠ 0 :=
  ⟨by decide, by decide, ⟨_, rfl⟩, ⟨_, rfl⟩, by decide⟩
theorem witness_MemoryReadRule : (0xFFFFFFFD#32).toNat % 4 ≠ 0 ∧
    ((0xFFFFFFFC#32).toNat % 4 = 0 ∧ Memory.readWord [] (0xFFFFFFFC#32).toNat = none) ∧
    Memory.readWord (oneWord 140 9) (140#32).toNat = some 9#32 := by decide
theorem witness_MemoryWriteRule : (141#32).toNat % 4 ≠ 0 ∧ (0#32).toNat % 4 = 0 ∧ (0xFFFFFFFC#32).toNat % 4 = 0 ∧
    (fun _ : Word => false) 0#32 = false ∧ (fun _ : Word => true) 0#32 = true ∧ Memory.wf [] := by decide
theorem witness_StoreWordRule :
    ((running 128 [(1, -4)] []).reg 1 + 0#32).toNat % 4 = 0 ∧
    ((running 128 [] []).reg 0 + 138#32).toNat % 4 ≠ 0 := by decide
theorem witness_LoadWordRule :
    let s := running 128 [(1, 2)] (oneWord 140 1)
    ((s.reg 1 + 138#32).toNat % 4 = 0 ∧ Memory.readWord s.dmem (s.reg 1 + 138#32).toNat = some 1#32) ∧
    (s.reg 1 + 139#32).toNat % 4 ≠ 0 ∧ Memory.readWord s.dmem (s.reg 0 + 200#32).toNat = none := by decide
theorem witness_LoadReturnsTheLatestStore :
    let s := running 128 [(1, -4)] []
    (∃ t, exec (.sw 1 0 1) s = .next t) ∧ (s.reg 1 + 0#32).toNat % 4 = 0 ∧
    s.reg 0 + 0xFFFFFFFC#32 = s.reg 1 + 0#32 := ⟨⟨_, rfl⟩, by decide, by decide⟩
theorem witness_ArithmeticWrapsSilently :
    let s := running 128 [(2, 0x7FFFFFFF), (3, 1)] []
    (∃ t, exec (.add 1 2 3) s = .next t) ∧ (∃ t, exec (.sub 1 2 3) s = .next t) ∧ (∃ t, exec (.mul 1 2 3) s = .next t) ∧
    (s.reg 2).toInt * (s.reg 3).toInt = 2147483647 ∧ -2147483648 ≤ (s.reg 2).toInt - (s.reg 3).toInt ∧
    (s.reg 2).toInt - (s.reg 3).toInt ≤ 2147483647 ∧ -2147483648 ≤ (s.reg 3).toInt + (s.reg 4).toInt ∧
    (s.reg 3).toInt + (s.reg 4).toInt ≤ 2147483647 := by
  refine ⟨⟨_, rfl⟩, ⟨_, rfl⟩, ⟨_, rfl⟩, ?_⟩
  decide
theorem witness_MultiplyReturnsTheLowWord :
    (∃ t, exec (.mul 1 2 3) (running 128 [(2, 0x80000000), (3, 0xFFFFFFFF)] []) = .next t) ∧
    (running 128 [(2, 0x80000000), (3, 0xFFFFFFFF)] []).reg 2 = 0x80000000#32 ∧
    (running 128 [(2, 0x80000000), (3, 0xFFFFFFFF)] []).reg 3 = 0xFFFFFFFF#32 ∧
    (running 128 [(2, 65536), (3, 65536)] []).reg 3 = 65536#32 ∧ (running 128 [(3, 65535)] []).reg 3 = 65535#32 ∧
    (running 128 [(2, 1), (3, 1)] []).reg 3 = 1#32 ∧ (running 128 [(2, 1)] []).reg 3 = 0#32 ∧
    (running 128 [(2, 1)] []).reg 2 ≠ 0x80000000#32 := by
  refine ⟨⟨_, rfl⟩, ?_⟩
  decide
theorem witness_LogicActsBitByBit :
    (∃ t, exec (.and 1 2 3) (running 128 [] []) = .next t) ∧ (∃ t, exec (.or 1 2 3) (running 128 [] []) = .next t) ∧
    (∃ t, exec (.xor 1 2 3) (running 128 [] []) = .next t) ∧ (∃ t, exec (.nor 1 2 2) (running 128 [] []) = .next t) ∧
    31 < 32 := ⟨⟨_, rfl⟩, ⟨_, rfl⟩, ⟨_, rfl⟩, ⟨_, rfl⟩, by decide⟩
theorem witness_LogicalImmediatesAreSignExtended :
    decode 0xE111FFFF#32 = some (.andi 2 1 (-1)) ∧ (0xE111FFFF#32).extractLsb' 0 16 = 0xFFFF#16 ∧
    decode 0xE112FF00#32 = some (.ori 2 1 (-256)) ∧ (0xE112FF00#32).getLsbD 15 = true ∧
    decode 0xE113FFFF#32 = some (.xori 2 1 (-1)) ∧ (0xE113FFFF#32).extractLsb' 0 16 = 0xFFFF#16 ∧
    decode 0xE1127FFF#32 = some (.ori 2 1 32767) ∧ (0xE1127FFF#32).getLsbD 15 = false ∧
    decode 0xE1137FFF#32 = some (.xori 2 1 32767) ∧ (0xE1137FFF#32).getLsbD 15 = false := by decide
theorem witness_LogicalImmediates_execute :
    (∃ t, exec (.andi 2 1 (-1)) (running 128 [] []) = .next t) ∧
    (∃ t, exec (.ori 2 1 (-256)) (running 128 [] []) = .next t) ∧
    (∃ t, exec (.xori 2 1 (-1)) (running 128 [] []) = .next t) := ⟨⟨_, rfl⟩, ⟨_, rfl⟩, ⟨_, rfl⟩⟩
theorem witness_AluFrame : destReg (.addi 1 0 5) = some 1 ∧ (∀ rt offset base, Instr.addi 1 0 5 ≠ .lw rt offset base) ∧
    ∃ t, exec (.addi 1 0 5) (running 128 [] []) = .next t := ⟨rfl, by simp, _, rfl⟩
theorem witness_ControlFrame : (∃ t, exec (.j 0) (running 128 [] []) = .next t) ∧
    (∃ t, exec (.beq 0 0 (-4)) (running 128 [] []) = .next t) ∧
    (∃ t, exec (.bgtz 0 4) (running 128 [] []) = .next t) ∧ (∃ t, exec .brk (running 128 [] []) = .next t) :=
  ⟨⟨_, rfl⟩, ⟨_, rfl⟩, ⟨_, rfl⟩, ⟨_, rfl⟩⟩
theorem witness_LoadStoreFrame : (∃ t, exec (.lw 2 0 1) (running 128 [(1, 140)] (oneWord 140 9)) = .next t) ∧
    (∃ t, exec (.sw 2 0 1) (running 128 [(1, 140)] []) = .next t ∧
      storeAddress (.sw 2 0 1) (running 128 [(1, 140)] []) = some 140) :=
  ⟨⟨_, rfl⟩, ⟨_, rfl, by decide⟩⟩

end Sys2Proof.Tests
end

/-! ### What the decoder produces (40_decoder.md R104) -/

namespace Sys2Proof

/-- Two zero bits at the end scale by 4, as in a jump target and a branch offset (R77, R78). -/
theorem append_two_zeros_toNat {n : Nat} (x : BitVec n) : (x ++ 0b00#2).toNat = 4 * x.toNat := by
  rw [BitVec.toNat_append, Nat.shiftLeft_eq]
  simp [Nat.mul_comm]

theorem targetOf_ok (w : Word) : targetOk (targetOf w) = true := by
  have hlt := (w.extractLsb' 0 26).isLt
  have h : (targetOf w).toNat = 4 * (w.extractLsb' 0 26).toNat := by
    rw [targetOf, zext32, BitVec.toNat_setWidth, append_two_zeros_toNat]
    omega
  simp only [targetOk, h, Bool.and_eq_true, decide_eq_true_eq, beq_iff_eq]
  omega

theorem branchOffsetOf_ok (w : Word) : branchOffsetOk (branchOffsetOf w) = true := by
  have hlt := (w.extractLsb' 0 16).isLt
  have hs : (branchOffsetOf w).toInt = (w.extractLsb' 0 16 ++ 0b00#2).toInt :=
    BitVec.toInt_signExtend_of_le (by omega)
  have hn := append_two_zeros_toNat (w.extractLsb' 0 16)
  have hc := BitVec.toInt_eq_toNat_cond (w.extractLsb' 0 16 ++ 0b00#2)
  have hw := BitVec.toInt_eq_toNat_cond (branchOffsetOf w)
  simp only [branchOffsetOk, Bool.and_eq_true, decide_eq_true_eq, beq_iff_eq]
  omega

theorem immOf_ok (w : Word) : immOk (immOf w) = true := by
  have hs : (immOf w).toInt = (w.extractLsb' 0 16).toInt := BitVec.toInt_signExtend_of_le (by omega)
  have hlo := BitVec.le_toInt (w.extractLsb' 0 16)
  have hhi := BitVec.toInt_lt (x := w.extractLsb' 0 16)
  simp only [immOk, hs, Bool.and_eq_true, decide_eq_true_eq]
  omega

/-- A decoded instruction is within the ranges of R104's table. -/
theorem decode_wellFormed {w : Word} {i : Instr} (h : decode w = some i) : i.wellFormed = true := by
  rcases decode_cases h with ⟨-, hi⟩ | ⟨-, op, -, rfl⟩ | ⟨-, op, -, rfl⟩
  · rcases hi with ⟨-, rfl⟩ | ⟨-, rfl⟩ | ⟨-, rfl⟩ | ⟨-, rfl⟩ | ⟨-, rfl⟩ | ⟨-, rfl⟩
    · exact targetOf_ok w
    · exact branchOffsetOf_ok w
    · exact branchOffsetOf_ok w
    · rfl
    · exact immOf_ok w
    · exact immOf_ok w
  · cases op <;> rfl
  · cases op <;> exact immOf_ok w

theorem targetOk.mod_four {a : Word} (h : targetOk a = true) : a.toNat % 4 = 0 := by
  simp only [targetOk, Bool.and_eq_true, beq_iff_eq] at h
  exact h.2

theorem branchOffsetOk.mod_four {a : Word} (h : branchOffsetOk a = true) : a.toNat % 4 = 0 := by
  simp only [branchOffsetOk, Bool.and_eq_true, beq_iff_eq] at h
  exact h.2

end Sys2Proof

namespace Sys2Proof.Machine

/-! ### What executing an instruction does, field by field -/

/-- No instruction writes the Program Image, `CODE_END` or the trace. -/
theorem exec_frame {i : Instr} {s t : State} (h : exec i s = .next t) :
    t.imem = s.imem ∧ t.codeEnd = s.codeEnd ∧ t.trace = s.trace := by
  rcases exec_cases i s with ⟨_, e, -⟩ | ⟨-, e⟩ | ⟨_, _, -, e⟩ | ⟨_, _, _, -, -, e⟩ | ⟨_, _, _, -, -, e⟩ |
    ⟨_, _, _, -, -, e⟩ <;> rw [e] at h <;> cases h <;> exact ⟨rfl, rfl, rfl⟩

/-- In Running an instruction other than BREAK completes its cycle or takes a fault, and BREAK halts (R27, R176, R177,
R180). -/
theorem exec_run_cases {i : Instr} {s t : State} (hr : s.run = .running) (h : exec i s = .next t) :
    (i ≠ .brk ∧ t.run = .running ∧ t.fault = s.fault ∧ t.cycle = s.cycle + 1) ∨
    (i = .brk ∧ t = { s with run := .halted }) ∨
    (i ≠ .brk ∧ ∃ f, t = s.takeFault f) := by
  rcases exec_cases i s with ⟨n, e, hi⟩ | ⟨hi, e⟩ | ⟨d, v, hi, e⟩ | ⟨rt, offset, base, hi, -, e⟩ |
    ⟨rt, offset, base, hi, -, e⟩ | ⟨rt, offset, base, hi, -, e⟩ <;> rw [e] at h <;> cases h
  · refine .inl ⟨?_, hr, rfl, rfl⟩
    rintro rfl
    simp at hi
  · exact .inr (.inl ⟨hi, rfl⟩)
  · refine .inl ⟨?_, hr, rfl, rfl⟩
    rintro rfl
    cases hi
  · exact .inl ⟨by simp [hi], hr, rfl, rfl⟩
  · exact .inr (.inr ⟨by simp [hi], _, rfl⟩)
  · exact .inr (.inr ⟨by simp [hi], _, rfl⟩)

/-- In a cycle that completes, BREAK halts and every other instruction goes on to the next cycle (R176, R177). -/
theorem exec_completes_cases {i : Instr} {s t : State} (hr : s.run = .running) (h : exec i s = .next t)
    (ht : t.run ≠ .faulted) :
    (i ≠ .brk ∧ t.run = .running ∧ t.fault = s.fault ∧ t.cycle = s.cycle + 1) ∨
    (i = .brk ∧ t = { s with run := .halted }) := by
  rcases exec_run_cases hr h with hnext | hbrk | ⟨-, f, rfl⟩
  · exact .inl hnext
  · exact .inr hbrk
  · exact absurd rfl ht

/-- An instruction keeps the Data Image in canonical form (R37 (a)): SW alone writes it, a whole aligned word. -/
theorem exec_keeps_dmem_wf {i : Instr} {s t : State} (hm : Memory.wf s.dmem) (h : exec i s = .next t) :
    Memory.wf t.dmem := by
  rcases exec_cases i s with ⟨_, e, -⟩ | ⟨-, e⟩ | ⟨_, _, -, e⟩ | ⟨rt, offset, base, -, ha, e⟩ | ⟨_, _, _, -, -, e⟩ |
    ⟨_, _, _, -, -, e⟩ <;> rw [e] at h <;> cases h
  case inr.inr.inr.inl => exact Memory.writeWord_wf _ hm ha (BitVec.isLt _)
  all_goals exact hm

/-- An instruction that completes and is no control transfer falls through (R24, R173). -/
theorem exec_pc_of_not_transfer {i : Instr} {s t : State} (hj : ∀ target, i ≠ .j target)
    (hbeq : ∀ rs rt offset, i ≠ .beq rs rt offset) (hbgtz : ∀ rs offset, i ≠ .bgtz rs offset) (hbrk : i ≠ .brk)
    (h : exec i s = .next t) (ht : t.run ≠ .faulted) : t.pc = s.pc + 4#32 := by
  rcases exec_cases i s with ⟨n, e, hi⟩ | ⟨hi, e⟩ | ⟨_, _, -, e⟩ | ⟨_, _, _, -, -, e⟩ | ⟨_, _, _, -, -, e⟩ |
    ⟨_, _, _, -, -, e⟩ <;> rw [e] at h <;> cases h
  · rcases hi with ⟨target, hi, -⟩ | ⟨rs, rt, offset, hi, -⟩ | ⟨rs, offset, hi, -⟩
    · exact absurd hi (hj target)
    · exact absurd hi (hbeq rs rt offset)
    · exact absurd hi (hbgtz rs offset)
  · exact absurd hi hbrk
  · rfl
  · rfl
  · exact absurd rfl ht
  · exact absurd rfl ht

/-! ### pc stays a multiple of 4 (R25) -/

theorem add_toNat_mod_four {a b : Word} (ha : a.toNat % 4 = 0) (hb : b.toNat % 4 = 0) : (a + b).toNat % 4 = 0 := by
  rw [BitVec.toNat_add]
  omega

theorem fallthrough_mod_four {s : State} (h : s.pc.toNat % 4 = 0) : s.fallthrough.toNat % 4 = 0 :=
  add_toNat_mod_four h rfl

theorem branchTarget_mod_four {s : State} {offset : Word} (h : s.pc.toNat % 4 = 0) (ho : branchOffsetOk offset = true) :
    (s.branchTarget offset).toNat % 4 = 0 :=
  add_toNat_mod_four (fallthrough_mod_four h) (branchOffsetOk.mod_four ho)

/-- A conditional branch goes to a multiple of 4, taken or not. -/
theorem branch_pc_mod_four {s : State} {offset : Word} (taken : Bool) (h : s.pc.toNat % 4 = 0)
    (ho : branchOffsetOk offset = true) :
    (if taken then s.branchTarget offset else s.fallthrough).toNat % 4 = 0 := by
  cases taken
  · exact fallthrough_mod_four h
  · exact branchTarget_mod_four h ho

/-- An instruction the decoder can produce keeps pc a multiple of 4. -/
theorem exec_keeps_pc_mod_four {i : Instr} {s t : State} (hw : i.wellFormed = true) (hp : s.pc.toNat % 4 = 0)
    (h : exec i s = .next t) : t.pc.toNat % 4 = 0 := by
  rcases exec_cases i s with ⟨n, e, hi⟩ | ⟨-, e⟩ | ⟨_, _, -, e⟩ | ⟨_, _, _, -, -, e⟩ | ⟨_, _, _, -, -, e⟩ |
    ⟨_, _, _, -, -, e⟩ <;> rw [e] at h <;> cases h
  · rcases hi with ⟨target, rfl, rfl⟩ | ⟨rs, rt, offset, rfl, rfl⟩ | ⟨rs, offset, rfl, rfl⟩
    · exact targetOk.mod_four hw
    · exact branch_pc_mod_four _ hp hw
    · exact branch_pc_mod_four _ hp hw
  · exact hp
  · exact fallthrough_mod_four hp
  · exact fallthrough_mod_four hp
  · exact hp
  · exact hp

/-! ### What a step does -/

/-- Everything a step can do: nothing outside Running; in Running take a fault, or complete the cycle of the instruction
IMEM holds at pc and emit its record. -/
theorem step_cases_running {s t : State} (h : step s = .next t) :
    (s.run ≠ .running ∧ t = s) ∨
    (s.run = .running ∧ ∃ f, t = s.takeFault f) ∨
    (s.run = .running ∧ ∃ w i u, s.pc.toNat % 4 = 0 ∧ Memory.readWord s.imem s.pc.toNat = some w ∧
      decode w = some i ∧ exec i s = .next u ∧ u.run ≠ .faulted ∧ t = u.emit (traceRecord s i u)) := by
  rcases step_cases h with hidle | ⟨hr, f, -, rfl⟩ | ⟨hr, w, i, u, hf, hd, he, rfl⟩
  · exact .inl hidle
  · exact .inr (.inl ⟨hr, f, rfl⟩)
  · have ⟨ha, hw⟩ : s.pc.toNat % 4 = 0 ∧ Memory.readWord s.imem s.pc.toNat = some w := by
      rcases ifetch_cases s s.pc with ⟨w', e, ha, -, -, hw⟩ | ⟨e, -⟩ <;> rw [hf] at e <;> cases e
      exact ⟨ha, hw⟩
    by_cases hu : u.run = .faulted
    · rcases exec_run_cases hr he with ⟨-, hrun, -, -⟩ | ⟨-, rfl⟩ | ⟨-, f, rfl⟩
      · rw [hrun] at hu; cases hu
      · cases hu
      · exact .inr (.inl ⟨hr, f, by simp⟩)
    · rw [if_neg hu]
      exact .inr (.inr ⟨hr, w, i, u, ha, hw, hd, he, hu, rfl⟩)

/-- No step changes the Program Image or `CODE_END` (R58). -/
theorem step_frame {s t : State} (h : step s = .next t) : t.imem = s.imem ∧ t.codeEnd = s.codeEnd := by
  rcases step_cases_running h with ⟨-, rfl⟩ | ⟨-, f, rfl⟩ | ⟨-, w, i, u, -, -, -, he, -, rfl⟩
  · exact ⟨rfl, rfl⟩
  · exact ⟨rfl, rfl⟩
  · obtain ⟨him, hce, -⟩ := exec_frame he
    exact ⟨him, hce⟩

/-! ### A step keeps each part of the invariant -/

theorem step_keeps_dmem_wf {s t : State} (hm : Memory.wf s.dmem) (h : step s = .next t) : Memory.wf t.dmem := by
  rcases step_cases_running h with ⟨-, rfl⟩ | ⟨-, f, rfl⟩ | ⟨-, w, i, u, -, -, -, he, -, rfl⟩
  · exact hm
  · exact hm
  · rw [State.emit_dmem]
    exact exec_keeps_dmem_wf hm he

/-- The Program Image of a load is a matter of IMEM and `CODE_END` alone. -/
theorem State.codeRegionOk.congr {s t : State} (hc : s.codeRegionOk) (him : t.imem = s.imem)
    (hce : t.codeEnd = s.codeEnd) : t.codeRegionOk := by
  simpa only [State.codeRegionOk, him, hce] using hc

theorem step_keeps_imageOk {s t : State} (hi : s.imageOk) (h : step s = .next t) : t.imageOk := by
  obtain ⟨him, hce⟩ := step_frame h
  rcases hi with ⟨hnil, hrun⟩ | hc
  · rw [step_of_not_running (by simp [hrun])] at h
    cases h
    exact .inl ⟨hnil, hrun⟩
  · exact .inr (hc.congr him hce)

theorem step_keeps_pc_mod_four {s t : State} (hp : s.pc.toNat % 4 = 0) (h : step s = .next t) :
    t.pc.toNat % 4 = 0 := by
  rcases step_cases_running h with ⟨-, rfl⟩ | ⟨-, f, rfl⟩ | ⟨-, w, i, u, -, -, hd, he, -, rfl⟩
  · exact hp
  · exact hp
  · rw [State.emit_pc]
    exact exec_keeps_pc_mod_four (decode_wellFormed hd) hp he

/-- A running machine that satisfies the invariant has a loaded Program Image. -/
theorem State.imageOk.codeRegionOk {s : State} (hi : s.imageOk) (hr : s.run = .running) : s.codeRegionOk := by
  rcases hi with ⟨-, hf⟩ | hc
  · rw [hr] at hf; cases hf
  · exact hc

/-- A BREAK stands at `CODE_END` only (R37 (c)). -/
theorem State.codeRegionOk.eq_codeEnd_of_brk {s : State} {a w : Word} (hc : s.codeRegionOk) (ha : a.toNat % 4 = 0)
    (hw : Memory.readWord s.imem a.toNat = some w) (hd : decode w = some .brk) : a = s.codeEnd := by
  obtain ⟨-, -, -, hwords⟩ := hc
  obtain ⟨i, hdi, hi⟩ := hwords a w ha hw
  exact hi.1 (Option.some.inj (hdi.symm.trans hd))

theorem step_keeps_runOk {s t : State} (hi : s.imageOk) (ho : s.runOk) (h : step s = .next t) : t.runOk := by
  rcases step_cases_running h with ⟨-, rfl⟩ | ⟨-, f, rfl⟩ | ⟨hr, w, i, u, ha, hw, hd, he, hu, rfl⟩
  · exact ho
  · exact ⟨by simp, by simp⟩
  · obtain ⟨hfault, -⟩ := ho
    have hnone : s.fault = none := by simpa [hr] using hfault
    rcases exec_completes_cases hr he hu with ⟨-, hrun, hf, -⟩ | ⟨rfl, rfl⟩
    · exact ⟨by simp [hrun, hf, hnone], by simp [hrun]⟩
    · exact ⟨by simp [hnone], fun _ => (hi.codeRegionOk hr).eq_codeEnd_of_brk ha hw hd⟩

/-- A record with the next number in front keeps the records numbered 1, 2, ... . -/
theorem trace_numbered_cons {r : TraceRecord} {trace : List TraceRecord}
    (h : trace.map (fun r => r.cycle) = (List.range' 1 trace.length).reverse) (hr : r.cycle = trace.length + 1) :
    (r :: trace).map (fun r => r.cycle) = (List.range' 1 (r :: trace).length).reverse := by
  rw [List.map_cons, h, hr, List.length_cons, List.range'_1_concat, List.reverse_append, Nat.add_comm]
  rfl

theorem step_keeps_traceOk {s t : State} (ht : s.traceOk) (h : step s = .next t) : t.traceOk := by
  rcases step_cases_running h with ⟨-, rfl⟩ | ⟨hr, f, rfl⟩ | ⟨hr, w, i, u, -, -, -, he, hu, rfl⟩
  · exact ht
  · simpa [State.traceOk, hr] using ht
  · obtain ⟨hnum, hcycle, hpos⟩ := ht
    rw [hr, if_neg (by simp)] at hcycle
    obtain ⟨-, -, htr⟩ := exec_frame he
    have hnum' : (u.emit (traceRecord s i u)).trace.map (fun r => r.cycle) =
        (List.range' 1 (u.emit (traceRecord s i u)).trace.length).reverse := by
      rw [State.emit_trace, htr]
      exact trace_numbered_cons hnum hcycle
    refine ⟨hnum', ?_⟩
    rcases exec_completes_cases hr he hu with ⟨-, hrun, -, hc⟩ | ⟨-, rfl⟩
    · simp [hrun, hc, htr, hcycle]
    · simpa using ⟨hcycle, hpos⟩

/-- A step keeps the invariant: each part by its own lemma. -/
theorem step_keeps_inv {s t : State} (hs : s.Inv) (h : step s = .next t) : t.Inv := by
  obtain ⟨him, hdm, himage, hpc, hrun, htrace⟩ := hs
  have himem : Memory.wf t.imem := by rwa [(step_frame h).1]
  exact ⟨himem, step_keeps_dmem_wf hdm h, step_keeps_imageOk himage h, step_keeps_pc_mod_four hpc h,
    step_keeps_runOk himage hrun h, step_keeps_traceOk htrace h⟩

/-- Settles O30: each part of `State.Inv` has its own lemma over what a step can do. -/
theorem stepKeepsInv : Obligations.StepKeepsInv := fun _ _ hs h => step_keeps_inv hs h

/-- Settles O22: the record is the one `finishCycle` builds from the state before and the state after. -/
theorem completedCycleEmitsOneRecord : Obligations.CompletedCycleEmitsOneRecord := by
  intro s t hr h
  rcases step_cases_running h with ⟨hn, -⟩ | ⟨-, f, rfl⟩ | ⟨-, w, i, u, -, hw, hd, he, hu, rfl⟩
  · exact absurd hr hn
  · exact ⟨fun ht => absurd rfl ht, fun _ => rfl⟩
  · refine ⟨fun _ => ⟨w, i, hw, hd, ?_⟩, fun ht => absurd ht hu⟩
    obtain ⟨-, -, htr⟩ := exec_frame he
    rw [State.emit_trace, htr]
    rfl

/-- Settles O24: of the ways an instruction can end in Running, BREAK's alone halts. -/
theorem onlyBreakHalts : Obligations.OnlyBreakHalts := by
  intro i s t hr h
  rcases exec_run_cases hr h with ⟨hi, hrun, -, -⟩ | ⟨rfl, rfl⟩ | ⟨hi, f, rfl⟩
  · simp [hi, hrun]
  · exact ⟨⟨fun _ => rfl, fun _ => rfl⟩, fun _ => ⟨rfl, rfl⟩⟩
  · simp [hi]

/-- Settles O26: the fetch does not see the trace, `exec` neither reads nor writes it, and the records are put in front
of it. -/
theorem traceIsObservationOnly : Obligations.TraceIsObservationOnly := by
  intro s t other h
  rcases step_cases h with ⟨hr, rfl⟩ | ⟨hr, f, hf, rfl⟩ | ⟨hr, w, i, u, hf, hd, he, rfl⟩
  · exact ⟨[], rfl, step_of_not_running hr⟩
  · exact ⟨[], rfl, step_of_fetch_error hr hf⟩
  · obtain ⟨htr, he'⟩ := exec_trace_irrelevant other he
    have hstep : step { s with trace := other } =
        finishCycle { s with trace := other } i (exec i { s with trace := other }) := step_of_decoded hr hf hd
    rw [hstep, he']
    by_cases hu : u.run = .faulted
    · exact ⟨[], by simp [hu, htr], by simp [finishCycle, hu]⟩
    · exact ⟨[traceRecord s i u], by simp [hu, htr], by simp [finishCycle, hu, State.emit, traceRecord]⟩

/-- Settles O40: row by row, the control transfers by their own next pc, all other instructions by falling through. -/
theorem nextPcIsThatOfTheTable : Obligations.NextPcIsThatOfTheTable := by
  intro i s t hr h
  refine ⟨?faulted, ?alu, ?store, ?jump, ?equal, ?greater, ?brk⟩
  case faulted =>
    intro ht
    rcases exec_run_cases hr h with ⟨-, hrun, -, -⟩ | ⟨-, rfl⟩ | ⟨-, f, rfl⟩
    · rw [hrun] at ht; cases ht
    · rfl
    · rfl
  case alu =>
    intro d hd ht
    have hne : ∀ j, destReg j = none → i ≠ j := by
      rintro j hj rfl
      rw [hd] at hj
      cases hj
    exact exec_pc_of_not_transfer (fun _ => hne _ rfl) (fun _ _ _ => hne _ rfl) (fun _ _ => hne _ rfl) (hne _ rfl) h ht
  case store =>
    rintro rt offset base rfl ht
    exact exec_pc_of_not_transfer (by simp) (by simp) (by simp) (by simp) h ht
  case jump =>
    rintro target rfl
    cases h
    rfl
  case equal =>
    rintro rs rt offset rfl
    cases h
    simp [branch, equalCondition, State.branchTarget, State.fallthrough]
  case greater =>
    rintro rs offset rfl
    cases h
    simp [branch, positiveCondition, State.branchTarget, State.fallthrough]
  case brk =>
    rintro rfl
    cases h
    exact ⟨rfl, rfl⟩

/-- Settles O15: the empty stream ends the load at its first step, without BREAK. -/
theorem resetStateIsTheEmptyStreams : Obligations.ResetStateIsTheEmptyStreams :=
  ⟨rfl, rfl, rfl, State.reset_reg, rfl, rfl, fun _ => rfl, fun _ => rfl⟩

end Sys2Proof.Machine

/-! ### The images a load builds (20_memory.md R48) -/

namespace Sys2Proof.Machine

theorem Memory.mapped_writeWord (m : Memory) (a x : Nat) (w : Word) :
    Memory.mapped (Memory.writeWord m a w) x = true ↔ (a ≤ x ∧ x < a + 4) ∨ Memory.mapped m x = true := by
  simp only [Memory.mapped, Memory.readByte_writeWord]
  split
  · next h => simp [h]
  · next h => simp [h]

/-- A memory in canonical form maps whole aligned words (R37 (a)). -/
theorem Memory.wf.word_mapped {m : Memory} (h : Memory.wf m) {a k : Nat} (ha : Memory.mapped m a = true) (hk : k < 4) :
    Memory.mapped m (a / 4 * 4 + k) = true := by
  obtain ⟨-, -, hwords⟩ := h
  obtain ⟨c, hc, rfl⟩ := (Memory.mapped_iff m a).1 ha
  exact hwords c hc k hk

/-- A memory in canonical form maps nothing outside the 32-bit space. -/
theorem Memory.wf.lt_of_mapped {m : Memory} (h : Memory.wf m) {a : Nat} (ha : Memory.mapped m a = true) :
    a < 4294967296 := by
  obtain ⟨-, hspace, -⟩ := h
  obtain ⟨c, hc, rfl⟩ := (Memory.mapped_iff m a).1 ha
  exact hspace c hc

/-- The first address after the code the loader has taken from `n` words: after the BREAK, or after all of them. -/
def Loading.codeTop (l : Loading) (n : Nat) : Nat :=
  match l.codeEnd with
  | some e => e.toNat + 4
  | none => 128 + 4 * n

theorem Loading.codeTop_of_some {l : Loading} {e : Word} (h : l.codeEnd = some e) (n : Nat) :
    l.codeTop n = e.toNat + 4 := by
  rw [codeTop, h]

theorem Loading.codeTop_of_none {l : Loading} (h : l.codeEnd = none) (n : Nat) : l.codeTop n = 128 + 4 * n := by
  rw [codeTop, h]

/-- What holds of the loader after `n` words (R46, R48): the code fills 128 up to `codeTop`, the data goes on from there
to the end of the `n` words, and of the code words, which all decode, the one at `codeEnd` and no other is BREAK. -/
structure Loading.Shape (l : Loading) (n : Nat) : Prop where
  imem_wf : Memory.wf l.imem
  dmem_wf : Memory.wf l.dmem
  code_mapped : ∀ a, Memory.mapped l.imem a = true ↔ 128 ≤ a ∧ a < l.codeTop n
  data_mapped : ∀ a, Memory.mapped l.dmem a = true ↔ l.codeTop n ≤ a ∧ a < 128 + 4 * n
  codeEnd_placed : ∀ e, l.codeEnd = some e → 128 ≤ e.toNat ∧ e.toNat % 4 = 0 ∧ e.toNat + 4 ≤ 128 + 4 * n
  code_word : ∀ a w, a % 4 = 0 → Memory.readWord l.imem a = some w →
    ∃ i, decode w = some i ∧ (i = .brk ↔ l.codeEnd.map BitVec.toNat = some a)

theorem Loading.start_shape : Loading.start.Shape 0 where
  imem_wf := Memory.wf_nil
  dmem_wf := Memory.wf_nil
  code_mapped a := by simp [Loading.start, Loading.codeTop, Memory.mapped, Memory.readByte]
  data_mapped a := by simp [Loading.start, Loading.codeTop, Memory.mapped, Memory.readByte]
  codeEnd_placed e he := by cases he
  code_word a w _ hw := by cases hw

section take
variable {l : Loading} {n : Nat} {w : Word}

/-- A data-mode word: the code stays as it is and the data grows by one word. -/
theorem Loading.Shape.take_data {e : Word} (hl : l.Shape n) (hn : n < 1073741792) (he : l.codeEnd = some e) :
    Loading.Shape { l with dmem := Memory.writeWord l.dmem (wordAddress n).toNat w } (n + 1) := by
  have hA := wordAddress_toNat hn
  obtain ⟨h128, h4, htop⟩ := hl.codeEnd_placed e he
  have htop_eq : ∀ m, Loading.codeTop { l with dmem := Memory.writeWord l.dmem (wordAddress n).toNat w } m =
      l.codeTop n := fun _ => (Loading.codeTop_of_some he _).trans (Loading.codeTop_of_some he _).symm
  rw [← Loading.codeTop_of_some he n] at htop
  constructor
  case imem_wf => exact hl.imem_wf
  case dmem_wf => exact Memory.writeWord_wf w hl.dmem_wf (by omega) (wordAddress n).isLt
  case code_mapped =>
    intro a
    rw [htop_eq]
    exact hl.code_mapped a
  case data_mapped =>
    intro a
    rw [htop_eq, Memory.mapped_writeWord, hl.data_mapped]
    omega
  case codeEnd_placed =>
    intro e' he'
    have := hl.codeEnd_placed e' he'
    omega
  case code_word => exact hl.code_word

/-- A code-mode word, BREAK or not: the code grows by one word, `codeEnd` is its address exactly where it is BREAK, and
there is no data yet. -/
theorem Loading.Shape.take_code {i : Instr} {codeEnd : Option Word} (hl : l.Shape n) (hn : n < 1073741792)
    (he : l.codeEnd = none) (hd : decode w = some i)
    (hc : (i = .brk ∧ codeEnd = some (wordAddress n)) ∨ (i ≠ .brk ∧ codeEnd = none)) :
    Loading.Shape { l with imem := Memory.writeWord l.imem (wordAddress n).toNat w, codeEnd := codeEnd } (n + 1) := by
  have hA := wordAddress_toNat hn
  have htop := Loading.codeTop_of_none he n
  have htop' : Loading.codeTop { l with imem := Memory.writeWord l.imem (wordAddress n).toNat w, codeEnd := codeEnd }
      (n + 1) = 128 + 4 * (n + 1) := by
    rcases hc with ⟨-, rfl⟩ | ⟨-, rfl⟩
    · rw [Loading.codeTop_of_some rfl]
      omega
    · exact Loading.codeTop_of_none rfl _
  constructor
  case imem_wf => exact Memory.writeWord_wf w hl.imem_wf (by omega) (wordAddress n).isLt
  case dmem_wf => exact hl.dmem_wf
  case code_mapped =>
    intro a
    rw [htop', Memory.mapped_writeWord, hl.code_mapped, htop]
    omega
  case data_mapped =>
    intro a
    rw [htop', hl.data_mapped, htop]
    omega
  case codeEnd_placed =>
    intro e he'
    rcases hc with ⟨-, rfl⟩ | ⟨-, rfl⟩
    · cases he'
      omega
    · cases he'
  case code_word =>
    intro a v ha hv
    rw [Memory.readWord_writeWord _ _ (by omega) ha] at hv
    split at hv
    · next h =>
      cases hv
      refine ⟨i, hd, ?_⟩
      rcases hc with ⟨hi, rfl⟩ | ⟨hi, rfl⟩
      · simp [hi, h]
      · simp [hi]
    · next h =>
      obtain ⟨j, hj, hb⟩ := hl.code_word a v ha hv
      refine ⟨j, hj, ?_⟩
      rw [hb, he]
      rcases hc with ⟨-, rfl⟩ | ⟨-, rfl⟩
      · simp [Ne.symm h]
      · rfl

theorem Loading.take_shape {l' : Loading} (hl : l.Shape n) (hn : n < 1073741792) (h : l.take n w = .ok l') :
    l'.Shape (n + 1) := by
  rcases l.take_cases n w with ⟨e, he, ht⟩ | ⟨-, -, ht⟩ | ⟨he, hd, ht⟩ | ⟨he, ⟨i, hd, hi⟩, ht⟩ <;>
    rw [ht] at h <;> cases h
  · exact hl.take_data hn he
  · exact hl.take_code hn he hd (.inl ⟨rfl, rfl⟩)
  · exact hl.take_code hn he hd (.inr ⟨hi, he⟩)
end take

/-- The loader that ends with these images. -/
def Images.toLoading (images : Images) : Loading where
  imem := images.imem
  dmem := images.dmem
  codeEnd := some images.codeEnd

/-- A load that succeeds ends after a BREAK, with the loader's own images. -/
theorem Loading.eq_of_finish_ok {l : Loading} {n : Nat} {images : Images} (h : l.finish n = .ok images) :
    l = images.toLoading := by
  obtain ⟨imem, dmem, _ | e⟩ := l
  · cases h
  · cases h; rfl

/-- What every word keeps of the loader holds of the images of a load that succeeds. -/
theorem loadFrom_keeps {P : Loading → Nat → Prop} {images : Images}
    (htake : ∀ l n w l', n < 1073741792 → P l n → l.take n w = .ok l' → P l' (n + 1)) (words : List Word) (l : Loading)
    (n : Nat) (hl : P l n) (hn : n + words.length ≤ 1073741792) (h : loadFrom l n words = .ok images) :
    P images.toLoading (n + words.length) := by
  induction words generalizing l n with
  | nil => rwa [← Loading.eq_of_finish_ok h]
  | cons w rest ih =>
    rw [List.length_cons] at hn ⊢
    rw [loadFrom] at h
    split at h
    · next l' ht =>
      have := ih l' (n + 1) (htake l n w l' (by omega) hl ht) (by omega) h
      rwa [Nat.add_right_comm] at this
    · cases h

theorem load_shape {words : List Word} {images : Images} (hn : words.length ≤ 1073741792)
    (h : load words = .ok images) : images.toLoading.Shape words.length := by
  have := loadFrom_keeps (P := Loading.Shape) (fun _ _ _ _ hn hl ht => Loading.take_shape hl hn ht)
    words Loading.start 0 Loading.start_shape (by omega) h
  rwa [Nat.zero_add] at this

/-! ### The reset of a stream that loads -/

/-- A reset that answers a state was given a stream that is not too long (R61). -/
theorem resetWith_next {words : List Word} {s : State} (h : resetWith words = .next s) :
    words.length ≤ 1073741792 ∧ s = State.ofLoad (load words) := by
  unfold resetWith at h
  split at h
  · cases h
  · next hn =>
    cases h
    exact ⟨Nat.not_lt.1 hn, rfl⟩

theorem State.ofLoad_pc (result : Except FaultRecord Images) : (State.ofLoad result).pc = 128#32 := by
  cases result <;> rfl

section ofLoad
variable {images : Images} {n : Nat}

theorem Loading.Shape.codeRegionOk (hs : images.toLoading.Shape n) : (State.ofLoad (.ok images)).codeRegionOk := by
  obtain ⟨h128, h4, -⟩ := hs.codeEnd_placed images.codeEnd rfl
  refine ⟨h128, h4, fun a ha => ?_, fun a w ha hw => ?_⟩
  · refine (Memory.readWord_isSome_iff hs.imem_wf ha).trans ((hs.code_mapped _).trans ?_)
    show 128 ≤ a.toNat ∧ a.toNat < images.codeEnd.toNat + 4 ↔ 128 ≤ a.toNat ∧ a.toNat ≤ images.codeEnd.toNat
    have h4 : images.codeEnd.toNat % 4 = 0 := h4
    omega
  · obtain ⟨i, hd, hi⟩ := hs.code_word a.toNat w ha hw
    refine ⟨i, hd, hi.trans ?_⟩
    show some images.codeEnd.toNat = some a.toNat ↔ a = images.codeEnd
    rw [Option.some_inj, BitVec.toNat_inj, eq_comm]

theorem Loading.Shape.inv (hs : images.toLoading.Shape n) : (State.ofLoad (.ok images)).Inv := by
  refine ⟨hs.imem_wf, hs.dmem_wf, .inr hs.codeRegionOk, ?_, ⟨by simp [State.ofLoad], by simp [State.ofLoad]⟩,
    ⟨rfl, rfl, Nat.le_refl 1⟩⟩
  rw [State.ofLoad_pc]
  rfl

/-- After a load the Data Image, where there is any, begins right after `CODE_END` and shares no address with the code
(R37 (e)). -/
theorem Loading.Shape.data_after_code (hs : images.toLoading.Shape n) {a : Nat}
    (ha : Memory.mapped images.dmem a = true) :
    Memory.mapped images.imem a = false ∧ images.codeEnd.toNat + 4 ≤ a ∧
      Memory.mapped images.dmem (images.codeEnd.toNat + 4) = true := by
  obtain ⟨hlo, hhi⟩ := (hs.data_mapped a).1 ha
  have htop : images.toLoading.codeTop n = images.codeEnd.toNat + 4 := Loading.codeTop_of_some rfl n
  rw [htop] at hlo
  refine ⟨?_, hlo, (hs.data_mapped _).2 (by omega)⟩
  have hcode := hs.code_mapped a
  rw [htop] at hcode
  rw [← Bool.not_eq_true]
  intro h
  exact absurd (hcode.1 h).2 (by omega)
end ofLoad

/-! ### Every state a run reaches -/

/-- A run of one step more, on any machine: one step, and the run from where it leads. -/
theorem run_succ_next {M : Host.Core} {n : Nat} {s t : M.State} (h : M.run (n + 1) s = .next t) :
    ∃ u, M.step s = .next u ∧ M.run n u = .next t := by
  rw [Host.Core.run] at h
  split at h
  · next u hu => exact ⟨u, hu, h⟩
  · cases h
  · cases h

/-- What every step keeps holds of every state a run reaches. -/
theorem run_keeps {P : State → Prop} (hstep : ∀ s t, P s → step s = .next t → P t) (n : Nat) {s t : State} (hs : P s)
    (h : Host.Core.run Sys2Proof.core n s = .next t) : P t := by
  induction n generalizing s with
  | zero => cases h; exact hs
  | succ n ih =>
    obtain ⟨u, hu, h⟩ := run_succ_next h
    exact ih (hstep s u hs hu) h

theorem run_keeps_inv {n : Nat} {s t : State} (hs : s.Inv) (h : Host.Core.run Sys2Proof.core n s = .next t) : t.Inv :=
  run_keeps (fun _ _ => step_keeps_inv) n hs h

theorem run_frame {n : Nat} {s t : State} (h : Host.Core.run Sys2Proof.core n s = .next t) :
    t.imem = s.imem ∧ t.codeEnd = s.codeEnd := by
  refine run_keeps (P := fun u => u.imem = s.imem ∧ u.codeEnd = s.codeEnd) ?_ n ⟨rfl, rfl⟩ h
  rintro u v ⟨him, hce⟩ hv
  obtain ⟨him', hce'⟩ := step_frame hv
  exact ⟨him'.trans him, hce'.trans hce⟩

section codeRegion
variable {s : State}

/-- The multiples of 4 that IMEM maps are those of the code region, of all the natural numbers (R37 (b)). -/
theorem State.codeRegionOk.mapped_iff (hc : s.codeRegionOk) (hm : Memory.wf s.imem) {a : Nat} (ha : a % 4 = 0) :
    Memory.mapped s.imem a = true ↔ 128 ≤ a ∧ a ≤ s.codeEnd.toNat := by
  obtain ⟨-, -, hregion, -⟩ := hc
  have hce := s.codeEnd.isLt
  by_cases hlt : a < 4294967296
  · have hw := hregion (BitVec.ofNat 32 a)
    rw [BitVec.toNat_ofNat, Nat.mod_eq_of_lt hlt] at hw
    rw [← Memory.readWord_isSome_iff hm ha]
    exact hw ha
  · have hno : ¬ Memory.mapped s.imem a = true := fun h => hlt (hm.lt_of_mapped h)
    simp only [hno]
    constructor
    · rintro ⟨⟩
    · omega

/-- A code word is BREAK exactly at `CODE_END` (R37 (c)). -/
theorem State.codeRegionOk.brk_iff (hc : s.codeRegionOk) (hm : Memory.wf s.imem) {a : Nat} {w : Word} (ha : a % 4 = 0)
    (hw : Memory.readWord s.imem a = some w) : decode w = some .brk ↔ a = s.codeEnd.toNat := by
  have hlt : a < 4294967296 := hm.lt_of_mapped ((Memory.readWord_isSome_iff hm ha).1 (by simp [hw]))
  obtain ⟨v, rfl⟩ : ∃ v : Word, v.toNat = a := ⟨BitVec.ofNat 32 a, by simpa using hlt⟩
  obtain ⟨-, -, -, hwords⟩ := hc
  obtain ⟨i, hd, hi⟩ := hwords v w ha hw
  rw [hd, Option.some_inj, hi, BitVec.toNat_inj]
end codeRegion

/-- Settles O33: the reset satisfies the invariant by the loader's shape, every step keeps the invariant and the Program
Image, and the clauses are read off the invariant. -/
theorem reachedStatesSatisfyTheInvariants : Obligations.ReachedStatesSatisfyTheInvariants := by
  intro words images s0 s n hload hreset hrun
  obtain ⟨hlen, rfl⟩ := resetWith_next hreset
  rw [hload] at hrun ⊢
  have hshape := load_shape hlen hload
  obtain ⟨himem, hdmem, -, hpc, ⟨-, hhalt⟩, -, -, hcycle⟩ := run_keeps_inv hshape.inv hrun
  obtain ⟨himem_eq, hce_eq⟩ := run_frame hrun
  have hcode : s.codeRegionOk := hshape.codeRegionOk.congr himem_eq hce_eq
  have ⟨h128, h4, _⟩ := hcode
  exact ⟨fun a ha k => himem.word_mapped ha, fun a ha k => hdmem.word_mapped ha, fun a => hcode.mapped_iff himem,
    h128, h4, himem_eq, hce_eq, fun a w => hcode.brk_iff himem, hpc, hcycle, hhalt,
    fun a => hshape.data_after_code⟩

end Sys2Proof.Machine

/-! ### The byte view of an instruction word (20_memory.md R50, 30_encoding.md R70) -/

namespace Sys2Proof

theorem decodeBytes_byteOfWord_of_some {w : Word} {i : Instr} (h : decode w = some i) (rest : List Byte) :
    decodeBytes (byteOfWord w 0 :: byteOfWord w 1 :: byteOfWord w 2 :: byteOfWord w 3 :: rest) = .ok (i, rest) := by
  simp only [decodeBytes, Machine.Memory.wordOfBytes_byteOfWord, h]

theorem decodeBytes_byteOfWord_of_none {w : Word} (h : decode w = none) (rest : List Byte) :
    decodeBytes (byteOfWord w 0 :: byteOfWord w 1 :: byteOfWord w 2 :: byteOfWord w 3 :: rest) =
      .error .unknownOpcode := by
  simp only [decodeBytes, Machine.Memory.wordOfBytes_byteOfWord, h]

theorem decodeBytes_of_length_lt {bytes : List Byte} (h : bytes.length < 4) :
    decodeBytes bytes = .error .truncated := by
  match bytes, h with
  | [], _ => rfl
  | [_], _ => rfl
  | [_, _], _ => rfl
  | [_, _, _], _ => rfl
  | _ :: _ :: _ :: _ :: _, h => simp only [List.length_cons] at h; omega

/-- The decoder reads a table's word of `nbits` bits as the 32-bit word with the higher bits 0. -/
theorem decodeTableWord_eq_decode (nbits w : Nat) :
    decodeTableWord nbits w = decode (BitVec.ofNat 32 (w % 2 ^ nbits)) := by
  rw [decodeTableWord]
  cases h : decode (BitVec.ofNat 32 (w % 2 ^ nbits)) with
  | some i => simp only [decodeBytes_byteOfWord_of_some h]
  | none => simp only [decodeBytes_byteOfWord_of_none h]

/-- Settles O7: the four bytes put together are the word, and fewer than four have no case of their own. -/
theorem bytesDecodeAsTheirWord : Obligations.BytesDecodeAsTheirWord := by
  refine ⟨fun w rest => ?_, fun bytes => decodeBytes_of_length_lt, fun w => ?_⟩
  · cases h : decode w with
    | some i => exact decodeBytes_byteOfWord_of_some h rest
    | none => exact decodeBytes_byteOfWord_of_none h rest
  · rw [decodeTableWord_eq_decode]
    congr 1
    apply BitVec.eq_of_toNat_eq
    simp only [BitVec.toNat_ofNat, Nat.mod_mod]

end Sys2Proof

/-! ### Loading a stream, piece by piece (20_memory.md R46 to R48) -/

namespace Sys2Proof.Machine

section take
variable {l : Loading} {n : Nat} {w : Word}

theorem Loading.take_of_data {e : Word} (hl : l.codeEnd = some e) :
    l.take n w = .ok { l with dmem := Memory.writeWord l.dmem (wordAddress n).toNat w } := by
  simp only [Loading.take, hl]

theorem Loading.take_of_undecodable (hl : l.codeEnd = none) (hw : decode w = none) :
    l.take n w = .error (.unknownOpcode (wordAddress n) w) := by
  simp only [Loading.take, hl, hw]

theorem Loading.take_of_brk (hl : l.codeEnd = none) (hw : decode w = some .brk) :
    l.take n w = .ok { l with
      imem := Memory.writeWord l.imem (wordAddress n).toNat w, codeEnd := some (wordAddress n) } := by
  simp only [Loading.take, hl, hw]

theorem Loading.take_of_plainCode (hl : l.codeEnd = none) (hw : plainCode w) :
    l.take n w = .ok { l with imem := Memory.writeWord l.imem (wordAddress n).toNat w } := by
  obtain ⟨i, hd, hi⟩ := hw
  rcases l.take_cases n w with ⟨e, he, -⟩ | ⟨-, hd', -⟩ | ⟨-, hd', -⟩ | ⟨-, -, h⟩
  · rw [hl] at he; cases he
  · rw [hd] at hd'; cases hd'
  · rw [hd] at hd'; exact absurd (Option.some.inj hd') hi
  · exact h
end take

/-- A memory with the words of a stream set, the first of them number `index`, each at its own address (R45). -/
def placeWords (m : Memory) (index : Nat) : List Word → Memory
  | [] => m
  | w :: rest => placeWords (Memory.writeWord m (wordAddress index).toNat w) (index + 1) rest

theorem placeWords_append (m : Memory) (n : Nat) (front back : List Word) :
    placeWords m n (front ++ back) = placeWords (placeWords m n front) (n + front.length) back := by
  induction front generalizing m n with
  | nil => rfl
  | cons w rest ih => simp only [List.cons_append, placeWords, ih, List.length_cons, Nat.add_assoc, Nat.add_comm 1]

/-- Setting words from number `n` on leaves every word below as it is. -/
theorem readWord_placeWords_below {words : List Word} {n x : Nat} (m : Memory) (hn : n + words.length ≤ 1073741792)
    (hx : x + 4 ≤ 128 + 4 * n) : Memory.readWord (placeWords m n words) x = Memory.readWord m x := by
  induction words generalizing m n with
  | nil => rfl
  | cons w rest ih =>
    rw [List.length_cons] at hn
    have ha := wordAddress_toNat (n := n) (by omega)
    rw [placeWords, ih _ (by omega) (by omega), Memory.readWord_writeWord_apart _ _ (by omega)]

theorem readWord_placeWords {words : List Word} {n j : Nat} {w : Word} (m : Memory)
    (hn : n + words.length ≤ 1073741792) (hw : words[j]? = some w) :
    Memory.readWord (placeWords m n words) (128 + 4 * (n + j)) = some w := by
  induction words generalizing m n j with
  | nil => cases hw
  | cons v rest ih =>
    rw [List.length_cons] at hn
    cases j with
    | zero =>
      cases hw
      have ha := wordAddress_toNat (n := n) (by omega)
      rw [placeWords, Nat.add_zero, readWord_placeWords_below _ (by omega) (by omega), ha]
      exact Memory.readWord_writeWord_same _ _ _
    | succ j =>
      rw [placeWords, ← Nat.add_assoc, Nat.add_right_comm]
      exact ih _ (by omega) (by simpa using hw)

theorem loadFrom_cons_of_ok {l l' : Loading} {n : Nat} {w : Word} (h : l.take n w = .ok l') (rest : List Word) :
    loadFrom l n (w :: rest) = loadFrom l' (n + 1) rest := by
  simp only [loadFrom, h]

theorem loadFrom_cons_of_error {l : Loading} {n : Nat} {w : Word} {f : FaultRecord} (h : l.take n w = .error f)
    (rest : List Word) : loadFrom l n (w :: rest) = .error f := by
  simp only [loadFrom, h]

/-- In code mode, words that are instructions other than BREAK are appended to the Program Image (R46). -/
theorem loadFrom_plainCode_append {l : Loading} {front : List Word} (hl : l.codeEnd = none)
    (hp : ∀ w ∈ front, plainCode w) (n : Nat) (back : List Word) :
    loadFrom l n (front ++ back) =
      loadFrom { l with imem := placeWords l.imem n front } (n + front.length) back := by
  induction front generalizing l n with
  | nil => rfl
  | cons w rest ih =>
    obtain ⟨hw, hrest⟩ := List.forall_mem_cons.1 hp
    rw [List.cons_append, loadFrom_cons_of_ok (Loading.take_of_plainCode hl hw), ih (by exact hl) hrest]
    simp only [placeWords, List.length_cons, Nat.add_assoc, Nat.add_comm 1]

/-- In data mode every word is appended to the Data Image, and the load succeeds (R46, R49). -/
theorem loadFrom_data {l : Loading} {e : Word} (hl : l.codeEnd = some e) (n : Nat) (words : List Word) :
    loadFrom l n words = .ok { imem := l.imem, dmem := placeWords l.dmem n words, codeEnd := e } := by
  induction words generalizing l n with
  | nil => simp only [loadFrom, Loading.finish, hl, placeWords]
  | cons w rest ih =>
    rw [loadFrom_cons_of_ok (Loading.take_of_data hl), ih (by exact hl)]
    rfl

/-- The first undecodable word in code mode ends the load (R47, R192). -/
theorem load_of_undecodable {front : List Word} {w : Word} (hp : ∀ v ∈ front, plainCode v) (hw : decode w = none)
    (back : List Word) : load (front ++ w :: back) = .error (.unknownOpcode (wordAddress front.length) w) := by
  rw [load, loadFrom_plainCode_append rfl hp, loadFrom_cons_of_error (Loading.take_of_undecodable rfl hw),
    Nat.zero_add]

/-- A stream without BREAK whose words all decode ends the load after its last word (R193). -/
theorem load_of_plainCode {words : List Word} (hp : ∀ v ∈ words, plainCode v) :
    load words = .error (.missingTerminator (wordAddress words.length)) := by
  have h := loadFrom_plainCode_append (l := Loading.start) rfl hp 0 []
  rw [List.append_nil, Nat.zero_add] at h
  exact h

/-- The code of a stream up to its BREAK is the Program Image, and what follows the BREAK is the Data Image (R48). -/
theorem load_of_brk {front : List Word} {b : Word} (hp : ∀ v ∈ front, plainCode v) (hb : decode b = some .brk)
    (data : List Word) :
    load (front ++ b :: data) = .ok
      { imem := placeWords [] 0 (front ++ [b])
        dmem := placeWords [] (front.length + 1) data
        codeEnd := wordAddress front.length } := by
  rw [load, loadFrom_plainCode_append rfl hp, loadFrom_cons_of_ok (Loading.take_of_brk rfl hb), loadFrom_data rfl,
    placeWords_append, Nat.zero_add]
  rfl

/-- A stream cut before one of its words, where all words before it are instructions other than BREAK. -/
theorem exists_append_of_plainCode_before {words : List Word} {j : Nat} {w : Word} (hw : words[j]? = some w)
    (hp : ∀ n v, n < j → words[n]? = some v → plainCode v) :
    ∃ front back, words = front ++ w :: back ∧ front.length = j ∧ ∀ v ∈ front, plainCode v := by
  obtain ⟨hj, rfl⟩ := List.getElem?_eq_some_iff.1 hw
  refine ⟨words.take j, words.drop (j + 1), ?_, List.length_take_of_le (Nat.le_of_lt hj), fun v hv => ?_⟩
  · rw [← List.drop_eq_getElem_cons, List.take_append_drop]
  · obtain ⟨n, hn, rfl⟩ := List.mem_take_iff_getElem.1 hv
    exact hp n _ (by omega) (List.getElem?_eq_getElem _)

/-- A stream cut at its first BREAK (R48). -/
theorem firstBreakAt.exists_append {words : List Word} {k : Nat} (h : firstBreakAt words k) :
    ∃ front b data, words = front ++ b :: data ∧ front.length = k ∧ (∀ v ∈ front, plainCode v) ∧
      decode b = some .brk := by
  obtain ⟨⟨b, hb, hd⟩, hp⟩ := h
  obtain ⟨front, data, hwords, hk, hplain⟩ := exists_append_of_plainCode_before hb hp
  exact ⟨front, b, data, hwords, hk, hplain, hd⟩

theorem Images.codeTop_toLoading (images : Images) (n : Nat) :
    images.toLoading.codeTop n = images.codeEnd.toNat + 4 :=
  Loading.codeTop_of_some rfl n

/-- Settles O10: the images are the code up to the BREAK and the data after it, each word placed at its own address, and
the loader's shape says what else is mapped. -/
theorem loadPlacesTheStream : Obligations.LoadPlacesTheStream := by
  intro words k hlen h
  obtain ⟨front, b, data, rfl, rfl, hp, hb⟩ := h.exists_append
  have hload := load_of_brk hp hb data
  have hshape := load_shape hlen hload
  have hcode : (front ++ [b]).length = front.length + 1 := List.length_append
  rw [List.length_append, List.length_cons] at hlen hshape ⊢
  have hce : (wordAddress front.length).toNat = 128 + 4 * front.length := wordAddress_toNat (by omega)
  refine ⟨_, hload, hce, fun n w hw hn => ?code, fun n w hw hn => ?data, fun a => ?imem, fun a => ?dmem⟩
  case code =>
    rw [List.append_cons, List.getElem?_append_left (by omega)] at hw
    have hread := readWord_placeWords (n := 0) [] (by omega) hw
    rwa [Nat.zero_add] at hread
  case data =>
    rw [List.append_cons, List.getElem?_append_right (by omega), hcode] at hw
    have hread := readWord_placeWords (n := front.length + 1) [] (by omega) hw
    rwa [Nat.add_sub_cancel' hn] at hread
  case imem =>
    have hmapped := hshape.code_mapped a
    rwa [Images.codeTop_toLoading, hce] at hmapped
  case dmem =>
    have hmapped := hshape.data_mapped a
    rwa [Images.codeTop_toLoading, hce] at hmapped

/-- Settles O11: the stream cut at the word that decides, and the reset of a load's fault. -/
theorem loadFailsAsTheRulesSay : Obligations.LoadFailsAsTheRulesSay := by
  refine ⟨fun words j w hw hd hp => ?_, fun words => load_of_plainCode, fun words k h => ?_, fun words f hn h => ?_⟩
  · obtain ⟨front, back, rfl, rfl, hplain⟩ := exists_append_of_plainCode_before hw hp
    exact load_of_undecodable hplain hd back
  · obtain ⟨front, b, data, rfl, -, hplain, hb⟩ := h.exists_append
    exact ⟨_, load_of_brk hplain hb data⟩
  · rw [resetWith_of_le hn, h]
    exact ⟨_, rfl, rfl, rfl, rfl, rfl⟩

/-! ### The text boundary (20_memory.md R45, 00_scope.md R7) -/

theorem bitsValue_append (acc : Nat) (front back : List Char) :
    bitsValue acc (front ++ back) = (bitsValue acc front).bind fun v => bitsValue v back := by
  induction front generalizing acc with
  | nil => rfl
  | cons c rest ih =>
    simp only [List.cons_append, bitsValue]
    cases bitOfChar c with
    | some b => exact ih _
    | none => rfl

theorem bitOfChar_of_bit (b : Bool) : bitOfChar (if b then '1' else '0') = some b := by
  cases b <;> rfl

/-- The first `n` characters of a word's text write the word's top `n` bits. -/
theorem bitsValue_top_bits (w : Word) {n : Nat} (hn : n ≤ 32) :
    bitsValue 0 ((List.range n).map fun i => if w.getLsbD (31 - i) then '1' else '0') =
      some (w.toNat / 2 ^ (32 - n)) := by
  induction n with
  | zero => simp [bitsValue, Nat.div_eq_of_lt w.isLt]
  | succ n ih =>
    have hbit : w.toNat / 2 ^ (32 - (n + 1)) = 2 * (w.toNat / 2 ^ (32 - n)) + (w.getLsbD (31 - n)).toNat := by
      rw [BitVec.getLsbD, Nat.toNat_testBit, show 32 - (n + 1) = 31 - n by omega, show 32 - n = 31 - n + 1 by omega,
        Nat.pow_succ, ← Nat.div_div_eq_div_mul, Nat.div_add_mod]
    rw [List.range_succ, List.map_append, bitsValue_append, ih (by omega), hbit]
    simp only [List.map_cons, List.map_nil, Option.bind_some, bitsValue, bitOfChar_of_bit]

/-- A word's text reads back as the word (R45). -/
@[simp] theorem parseLine_lineOfWord (w : Word) : parseLine (lineOfWord w) = some w := by
  have hlen : (lineOfWord w).length = 32 := by simp [lineOfWord]
  rw [parseLine, if_pos hlen, lineOfWord, bitsValue_top_bits w (Nat.le_refl 32)]
  simp

theorem loadTextFrom_map_lineOfWord (l : Loading) (n : Nat) (words : List Word) :
    loadTextFrom l n (words.map lineOfWord) = loadFrom l n words := by
  induction words generalizing l n with
  | nil => rfl
  | cons w rest ih =>
    cases ht : l.take n w with
    | ok l' => simp only [List.map_cons, loadTextFrom, loadFrom, parseLine_lineOfWord, ht, ih]
    | error f => simp only [List.map_cons, loadTextFrom, loadFrom, parseLine_lineOfWord, ht]

/-- Settles O16: every line reads back as its word. -/
theorem textLoadsAsItsWords : Obligations.TextLoadsAsItsWords := by
  intro words
  have hload : loadText (words.map lineOfWord) = load words := loadTextFrom_map_lineOfWord _ _ _
  refine ⟨hload, ?_⟩
  rw [resetWithText, resetWith, hload, List.length_map]

/-! ### The longest stream (20_memory.md R61) -/

theorem maxWords_eq : Config.maxWords = (2 ^ 32 - 128) / 4 := rfl

/-- Settles O14: MAX_WORDS is the bound of R61. -/
theorem longerStreamIsRefused : Obligations.LongerStreamIsRefused := by
  simp only [Obligations.LongerStreamIsRefused, ← maxWords_eq]
  refine ⟨fun words => ⟨fun h => ?_, fun h => ?_⟩, fun lines => ⟨fun h => ?_, fun h => ?_⟩⟩
  · exact ⟨_, if_neg (Nat.not_lt.2 h)⟩
  · exact if_pos h
  · exact ⟨_, if_neg (Nat.not_lt.2 h)⟩
  · exact if_pos h

/-! ### The fetch (20_memory.md R42, R58) -/

/-- The fetch is a matter of IMEM and `CODE_END` alone. -/
theorem State.ifetch_congr {s t : State} (him : t.imem = s.imem) (hce : t.codeEnd = s.codeEnd) (a : Word) :
    t.ifetch a = s.ifetch a := by
  simp only [State.ifetch, him, hce]

/-- Settles O23: no instruction and no step writes IMEM or CODE_END, and the fetch reads nothing else. -/
theorem storesNeverReachTheFetch : Obligations.StoresNeverReachTheFetch := by
  refine ⟨fun i s t h => ?_, fun s t => step_frame⟩
  obtain ⟨him, hce, -⟩ := exec_frame h
  exact ⟨him, hce, State.ifetch_congr him hce⟩

/-- Settles O19: the fetch faults, and the step takes that fault. -/
theorem fetchOutsideTheCodeRegionFaults : Obligations.FetchOutsideTheCodeRegionFaults := by
  intro s hr hpc
  exact step_of_fetch_error hr (ifetch_outside (by omega))

/-! ### MemRead and MemWrite (20_memory.md R43, R44) -/

section memory
variable {capacity : Word → Bool} {m : Memory} {a v : Word}

theorem memRead_of_misaligned (ha : a.toNat % 4 ≠ 0) : memRead m a = .error (.unmappedAddress .load a) :=
  if_neg (mt (aligned_iff a).1 ha)

theorem memRead_of_unmapped (ha : a.toNat % 4 = 0) (hm : Memory.readWord m a.toNat = none) :
    memRead m a = .error (.unmappedAddress .load a) := by
  simp only [memRead, (aligned_iff a).2 ha, hm, if_true]

theorem memRead_of_word (ha : a.toNat % 4 = 0) (hm : Memory.readWord m a.toNat = some v) : memRead m a = .ok v := by
  simp only [memRead, (aligned_iff a).2 ha, hm, if_true]

theorem memWriteIn_of_misaligned (ha : a.toNat % 4 ≠ 0) :
    memWriteIn capacity m a v = .error (.unmappedAddress .store a) :=
  if_neg (mt (aligned_iff a).1 ha)

theorem memWriteIn_of_no_capacity (ha : a.toNat % 4 = 0) (hc : capacity a = false) :
    memWriteIn capacity m a v = .error (.unmappedAddress .store a) := by
  simp [memWriteIn, (aligned_iff a).2 ha, hc]

theorem memWriteIn_of_capacity (ha : a.toNat % 4 = 0) (hc : capacity a = true) :
    memWriteIn capacity m a v = .ok (Memory.writeWord m a.toNat v) := by
  simp only [memWriteIn, (aligned_iff a).2 ha, hc, if_true]
end memory

/-- A word write leaves every byte outside its word as it is. -/
theorem Memory.readByte_writeWord_outside (m : Memory) {a x : Nat} (w : Word) (h : x < a ∨ a + 4 ≤ x) :
    Memory.readByte (Memory.writeWord m a w) x = Memory.readByte m x := by
  rw [Memory.readByte_writeWord, if_neg (by omega)]

/-- Settles O42: MemRead's three cases. -/
theorem memoryReadRule : Obligations.MemoryReadRule :=
  fun _ _ => ⟨memRead_of_misaligned, memRead_of_unmapped, fun _ => memRead_of_word⟩

/-- Settles O43: MemWrite's three cases, and the laws of a word write; the machine's own capacity is every address. -/
theorem memoryWriteRule : Obligations.MemoryWriteRule := by
  refine ⟨fun capacity m a v => ⟨memWriteIn_of_misaligned, memWriteIn_of_no_capacity, fun ha hc => ?_⟩,
    fun m a v => rfl⟩
  exact ⟨_, memWriteIn_of_capacity ha hc, Memory.readWord_writeWord_same _ _ _,
    fun x => Memory.readByte_writeWord_outside m v, fun hm => Memory.writeWord_wf v hm ha a.isLt⟩

/-! ### Loads and stores (20_memory.md R41, R52, R55) -/

/-- The effective address is a sum modulo 2^32 (R130). -/
theorem State.effectiveAddress_eq (s : State) (base : Reg) (offset : Word) :
    s.effectiveAddress base offset = s.reg base + offset := by
  rw [State.effectiveAddress, wrap32, BitVec.ofInt_add, BitVec.ofInt_natCast, BitVec.ofNat_toNat, BitVec.setWidth_eq,
    BitVec.ofInt_toInt]

section loadStore
variable {rt base : Reg} {offset v : Word} {s : State}

theorem exec_sw_of_aligned (ha : (s.reg base + offset).toNat % 4 = 0) :
    exec (.sw rt offset base) s = .next
      ({ s with dmem := Memory.writeWord s.dmem (s.reg base + offset).toNat (s.reg rt) }.commit s.fallthrough) := by
  rw [← State.effectiveAddress_eq] at ha ⊢
  rcases execSw_cases rt offset base s with ⟨h, -⟩ | ⟨-, hn⟩
  · exact h
  · exact absurd ha hn

theorem exec_sw_of_misaligned (ha : (s.reg base + offset).toNat % 4 ≠ 0) :
    exec (.sw rt offset base) s = .next (s.takeFault (.unmappedAddress .store (s.reg base + offset))) := by
  rw [← State.effectiveAddress_eq] at ha ⊢
  rcases execSw_cases rt offset base s with ⟨-, hn⟩ | ⟨h, -⟩
  · exact absurd hn ha
  · exact h

theorem exec_lw_of_word (ha : (s.reg base + offset).toNat % 4 = 0)
    (hv : Memory.readWord s.dmem (s.reg base + offset).toNat = some v) :
    exec (.lw rt offset base) s = .next ((s.setReg rt v).commit s.fallthrough) := by
  rw [← State.effectiveAddress_eq] at ha hv
  rcases execLw_cases rt offset base s with ⟨v', h, -, hv'⟩ | ⟨-, hn⟩
  · rw [hv] at hv'
    cases hv'
    exact h
  · rw [hn ha] at hv
    cases hv
end loadStore

/-- Writing a register and falling through changes that register, pc and cycle, and nothing else. -/
theorem registerWritten_setReg_commit (s : State) (d : Reg) (v : Word) :
    registerWritten s ((s.setReg d v).commit s.fallthrough) d v :=
  ⟨by simp, fun r hr => by simp [State.setReg_reg_other _ _ _ hr], rfl, rfl, rfl, rfl, rfl, rfl, rfl, rfl⟩

/-- Settles O27: SW alone of them meets DMEM, and which of its two outcomes it has is decided by its address, which DMEM
does not enter. -/
theorem dataImageReachesOnlyLoads : Obligations.DataImageReachesOnlyLoads := by
  intro i s t other hlw h
  cases i
  case lw rt offset base => exact absurd rfl (hlw rt offset base)
  case sw rt offset base =>
    by_cases ha : (s.reg base + offset).toNat % 4 = 0
    · rw [exec_sw_of_aligned ha] at h
      cases h
      exact ⟨_, exec_sw_of_aligned (s := { s with dmem := other }) ha⟩
    · rw [exec_sw_of_misaligned ha] at h
      cases h
      exact ⟨_, exec_sw_of_misaligned (s := { s with dmem := other }) ha⟩
  all_goals
    cases h
    exact ⟨other, rfl⟩

/-- Settles O46: the store leaves the registers, so the load meets the word the store has just written. -/
theorem loadReturnsTheLatestStore : Obligations.LoadReturnsTheLatestStore := by
  intro rt base rt' base' offset offset' s t h ha heq
  rw [exec_sw_of_aligned ha] at h
  cases h
  refine ⟨_, exec_lw_of_word ?_ ?_, registerWritten_setReg_commit _ _ _⟩
  · rw [← heq] at ha
    exact ha
  · rw [← heq]
    exact Memory.readWord_writeWord_same _ _ _

end Sys2Proof.Machine

/-! ### What does not decode (30_encoding.md R82) -/

namespace Sys2Proof

theorem decodeCat1_eq_none_iff (w : Word) : decodeCat1 w = none ↔ sub1Of w ∈ [0b001#3, 0b011#3] := by
  simp only [decodeCat1, ite_eq_iff, reduceCtorEq, and_false, false_or, and_true]
  generalize sub1Of w = sub
  revert sub
  decide

theorem subop2_eq_none_iff : ∀ sub : BitVec 3, subop2 sub = none ↔ sub = 0b111#3 := by decide

theorem subop3_eq_none_iff :
    ∀ sub : BitVec 3, subop3 sub = none ↔ sub ∈ [0b100#3, 0b101#3, 0b110#3, 0b111#3] := by decide

theorem decodeCat2_eq_none_iff (w : Word) : decodeCat2 subop2 w = none ↔ subAluOf w = 0b111#3 :=
  Option.map_eq_none_iff.trans (subop2_eq_none_iff _)

theorem decodeCat3_eq_none_iff (w : Word) :
    decodeCat3 subop3 w = none ↔ subAluOf w ∈ [0b100#3, 0b101#3, 0b110#3, 0b111#3] :=
  Option.map_eq_none_iff.trans (subop3_eq_none_iff _)

section major
variable {w : Word}

theorem decode_of_major_000 (h : majorOf w = 0b000#3) : decode w = decodeCat1 w := if_pos h

theorem decode_of_major_110 (h : majorOf w = 0b110#3) : decode w = decodeCat2 subop2 w := by
  rw [decode, decodeWith, h, if_neg (by decide), if_pos rfl]

theorem decode_of_major_111 (h : majorOf w = 0b111#3) : decode w = decodeCat3 subop3 w := by
  rw [decode, decodeWith, h, if_neg (by decide), if_neg (by decide), if_pos rfl]

theorem decode_of_major_unmapped (h : majorOf w ∈ [0b001#3, 0b010#3, 0b011#3, 0b100#3, 0b101#3]) :
    decode w = none := by
  simp only [List.mem_cons, List.not_mem_nil, or_false] at h
  rcases h with h | h | h | h | h <;> simp [decode, decodeWith, h]
end major

/-- Every major opcode is one of the three categories' or unmapped (R71, R82). -/
theorem major_cases : ∀ m : BitVec 3, m = 0b000#3 ∨ m = 0b110#3 ∨ m = 0b111#3 ∨
    m ∈ [0b001#3, 0b010#3, 0b011#3, 0b100#3, 0b101#3] := by decide

/-- Under each category's major opcode, the rows of R82 are what the category's own table leaves out. -/
theorem decode_eq_none_iff (w : Word) : decode w = none ↔
    majorOf w ∈ [0b001#3, 0b010#3, 0b011#3, 0b100#3, 0b101#3] ∨
    (majorOf w = 0b000#3 ∧ sub1Of w ∈ [0b001#3, 0b011#3]) ∨
    (majorOf w = 0b110#3 ∧ subAluOf w = 0b111#3) ∨
    (majorOf w = 0b111#3 ∧ subAluOf w ∈ [0b100#3, 0b101#3, 0b110#3, 0b111#3]) := by
  rcases major_cases (majorOf w) with h | h | h | h
  · rw [decode_of_major_000 h, decodeCat1_eq_none_iff, h]
    simp
  · rw [decode_of_major_110 h, decodeCat2_eq_none_iff, h]
    simp
  · rw [decode_of_major_111 h, decodeCat3_eq_none_iff, h]
    simp
  · exact iff_of_true (decode_of_major_unmapped h) (.inl h)

/-- Settles O2: the decoder, category by category. -/
theorem illegalWordsAreExactlyTheListed : Obligations.IllegalWordsAreExactlyTheListed := decode_eq_none_iff

/-! ### The unused bits (30_encoding.md R81) -/

@[simp] theorem AluRegOp.usedBits_instr (op : AluRegOp) (rd rs rt : Reg) :
    (op.instr rd rs rt).usedBits = 0xFFFFF800#32 := by cases op <;> rfl

@[simp] theorem AluImmOp.usedBits_instr (op : AluImmOp) (rt rs : Reg) (imm : Word) :
    (op.instr rt rs imm).usedBits = 0xFFFFFFFF#32 := by cases op <;> rfl

section masked
variable {w w' mask : Word}

theorem eq_of_and_all_used (h : w' &&& 0xFFFFFFFF#32 = w &&& 0xFFFFFFFF#32) : w' = w := by
  rwa [show (0xFFFFFFFF#32 : Word) = BitVec.allOnes 32 from rfl, BitVec.and_allOnes, BitVec.and_allOnes] at h

/-- Words that agree under a mask have the same field wherever the mask is all ones. -/
theorem extractLsb'_congr_of_mask {lo n : Nat} (h : w' &&& mask = w &&& mask)
    (hm : mask.extractLsb' lo n = BitVec.allOnes n) : w'.extractLsb' lo n = w.extractLsb' lo n := by
  have := congrArg (BitVec.extractLsb' lo n) h
  rwa [BitVec.extractLsb'_and, BitVec.extractLsb'_and, hm, BitVec.and_allOnes, BitVec.and_allOnes] at this

theorem regAt_congr_of_mask {lo : Nat} (h : w' &&& mask = w &&& mask)
    (hm : mask.extractLsb' lo 5 = BitVec.allOnes 5) : regAt w' lo = regAt w lo :=
  regAt_eq_of_slice ((extractLsb'_congr_of_mask h hm).trans (regBits_regAt w lo).symm)

theorem decode_brk_of_mask (h : w' &&& 0xFC000000#32 = w &&& 0xFC000000#32) (hm : majorOf w = 0b000#3)
    (hs : sub1Of w = 0b101#3) : decode w' = some .brk := by
  have hm' : majorOf w' = 0b000#3 := (extractLsb'_congr_of_mask h (by decide)).trans hm
  have hs' : sub1Of w' = 0b101#3 := (extractLsb'_congr_of_mask h (by decide)).trans hs
  rw [decode_of_major_000 hm']
  simp [decodeCat1, hs']

theorem decode_bgtz_of_mask (h : w' &&& 0xFFE0FFFF#32 = w &&& 0xFFE0FFFF#32) (hm : majorOf w = 0b000#3)
    (hs : sub1Of w = 0b100#3) : decode w' = some (.bgtz (rs1Of w) (branchOffsetOf w)) := by
  have hm' : majorOf w' = 0b000#3 := (extractLsb'_congr_of_mask h (by decide)).trans hm
  have hs' : sub1Of w' = 0b100#3 := (extractLsb'_congr_of_mask h (by decide)).trans hs
  have hrs : rs1Of w' = rs1Of w := regAt_congr_of_mask h (by decide)
  have himm : w'.extractLsb' 0 16 = w.extractLsb' 0 16 := extractLsb'_congr_of_mask h (by decide)
  rw [decode_of_major_000 hm']
  simp [decodeCat1, hs', hrs, branchOffsetOf, himm]

theorem decode_cat2_of_mask {op : AluRegOp} (h : w' &&& 0xFFFFF800#32 = w &&& 0xFFFFF800#32)
    (hm : majorOf w = 0b110#3) (ho : subop2 (subAluOf w) = some op) :
    decode w' = some (op.instr (rdOf w) (rsAluOf w) (rtAluOf w)) := by
  have hm' : majorOf w' = 0b110#3 := (extractLsb'_congr_of_mask h (by decide)).trans hm
  have hsub : subAluOf w' = subAluOf w := extractLsb'_congr_of_mask h (by decide)
  have hrd : rdOf w' = rdOf w := regAt_congr_of_mask h (by decide)
  have hrs : rsAluOf w' = rsAluOf w := regAt_congr_of_mask h (by decide)
  have hrt : rtAluOf w' = rtAluOf w := regAt_congr_of_mask h (by decide)
  rw [decode_of_major_110 hm', decodeCat2, hsub, ho, hrd, hrs, hrt, Option.map_some]

/-- The decoder reads no unused bit. -/
theorem decode_of_usedBits_agree {i : Instr} (hw : decode w = some i)
    (h : w' &&& i.usedBits = w &&& i.usedBits) : decode w' = some i := by
  have hall (hu : i.usedBits = 0xFFFFFFFF#32) : decode w' = some i := by
    rw [hu] at h
    rwa [eq_of_and_all_used h]
  rcases decode_cases hw with ⟨hm, hi⟩ | ⟨hm, op, ho, rfl⟩ | ⟨-, op, -, rfl⟩
  · rcases hi with ⟨-, rfl⟩ | ⟨-, rfl⟩ | ⟨hs, rfl⟩ | ⟨hs, rfl⟩ | ⟨-, rfl⟩ | ⟨-, rfl⟩
    · exact hall rfl
    · exact hall rfl
    · exact decode_bgtz_of_mask h hm hs
    · exact decode_brk_of_mask h hm hs
    · exact hall rfl
    · exact hall rfl
  · rw [AluRegOp.usedBits_instr] at h
    exact decode_cat2_of_mask h hm ho
  · exact hall (op.usedBits_instr _ _ _)
end masked

theorem and_not_all_used (w : Word) : w &&& ~~~0xFFFFFFFF#32 = 0#32 := BitVec.and_zero

/-- The encoder leaves instr[10:0] of Category 2 at 0. -/
theorem encodeC2_and_unused (sub : BitVec 3) (rd rs rt : Reg) :
    encodeC2 sub rd rs rt &&& ~~~0xFFFFF800#32 = 0#32 := by
  change (0b110#3 ++ regBits rs ++ regBits rt ++ sub ++ regBits rd ++ 0#11) &&& (0#21 ++ BitVec.allOnes 11) =
    0#21 ++ 0#11
  rw [BitVec.and_append, BitVec.and_zero, BitVec.zero_and]

/-- The encoder leaves instr[20:16] at 0 where it is given no rt. -/
theorem encodeC1B_and_unused (sub : BitVec 3) (rs : BitVec 5) (imm16 : BitVec 16) :
    encodeC1B sub rs 0#5 imm16 &&& ~~~0xFFE0FFFF#32 = 0#32 := by
  change (0b000#3 ++ sub ++ rs ++ 0#5 ++ imm16) &&& (0#11 ++ BitVec.allOnes 5 ++ 0#16) = 0#11 ++ 0#5 ++ 0#16
  rw [BitVec.and_append, BitVec.and_append, BitVec.and_zero, BitVec.zero_and, BitVec.and_zero]

theorem encode_and_unused (i : Instr) : encode i &&& ~~~i.usedBits = 0#32 := by
  cases i
  case brk => rfl
  case bgtz => exact encodeC1B_and_unused _ _ _
  case add | sub | mul | and | or | xor | nor => exact encodeC2_and_unused _ _ _ _
  case j | beq | sw | lw | addi | andi | ori | xori => exact and_not_all_used _

/-- Settles O5: only BREAK, BGTZ and Category 2 have unused bits; their fields lie outside these, and the encoder puts 0
there. -/
theorem unusedBitsAreIgnored : Obligations.UnusedBitsAreIgnored :=
  ⟨fun _ _ _ => decode_of_usedBits_agree, encode_and_unused, rfl, fun _ _ => rfl,
    fun op rd rs rt => op.usedBits_instr rd rs rt⟩

/-! ### The mnemonic text (30_encoding.md R85) -/

/-- Settles O9: the words of the table are literals, and each evaluates to its text. -/
theorem mnemonicTextOfTheExamples : Obligations.MnemonicTextOfTheExamples := by
  refine ⟨?_, ?_, ?_, ?_, ?_, ?_, ?_, ?_⟩ <;> decide

end Sys2Proof

/-! ### Encoding and decoding back (40_decoder.md R109) -/

namespace Sys2Proof

section operands
variable {w a : Word}

/-- A word whose 26-bit field is `a / 4` has the jump target `a` (R77). -/
theorem targetOf_eq_of_field (hf : w.extractLsb' 0 26 = a.extractLsb' 2 26) (ha : targetOk a = true) :
    targetOf w = a := by
  apply BitVec.eq_of_toNat_eq
  rw [targetOf, zext32, BitVec.toNat_setWidth, append_two_zeros_toNat, hf, BitVec.extractLsb'_toNat]
  simp only [targetOk, Bool.and_eq_true, decide_eq_true_eq, beq_iff_eq] at ha
  omega

/-- A word whose 16-bit field is `a / 4` has the branch offset `a` (R78). -/
theorem branchOffsetOf_eq_of_field (hf : w.extractLsb' 0 16 = a.extractLsb' 2 16) (ha : branchOffsetOk a = true) :
    branchOffsetOf w = a := by
  apply BitVec.eq_of_toInt_eq
  have hs : (branchOffsetOf w).toInt = (w.extractLsb' 0 16 ++ 0b00#2).toInt :=
    BitVec.toInt_signExtend_of_le (by omega)
  rw [hs, BitVec.toInt_eq_toNat_cond, append_two_zeros_toNat, hf, BitVec.extractLsb'_toNat]
  have ht := BitVec.toInt_eq_toNat_cond a
  simp only [branchOffsetOk, Bool.and_eq_true, decide_eq_true_eq, beq_iff_eq] at ha
  omega

/-- A word whose 16-bit field is the low half of `a` has the memory offset or immediate `a` (R79, R80). -/
theorem immOf_eq_of_field (hf : w.extractLsb' 0 16 = a.extractLsb' 0 16) (ha : immOk a = true) : immOf w = a := by
  apply BitVec.eq_of_toInt_eq
  have hs : (immOf w).toInt = (w.extractLsb' 0 16).toInt := BitVec.toInt_signExtend_of_le (by omega)
  rw [hs, BitVec.toInt_eq_toNat_cond, hf, BitVec.extractLsb'_toNat]
  have ht := BitVec.toInt_eq_toNat_cond a
  simp only [immOk, Bool.and_eq_true, decide_eq_true_eq] at ha
  omega

/-- The scaling of a jump target loses no bit of its field. -/
theorem targetOf_field (w : Word) : (targetOf w).extractLsb' 2 26 = w.extractLsb' 0 26 := by
  rw [targetOf, zext32, BitVec.extractLsb'_setWidth_of_le (by decide),
    BitVec.extractLsb'_append_eq_of_le (by decide), BitVec.extractLsb'_eq_self]

/-- Sign extension keeps every field of what it extends. -/
theorem sext32_extractLsb' {n lo len : Nat} (v : BitVec n) (h : lo + len ≤ n) (hn : n ≤ 32) :
    (sext32 v).extractLsb' lo len = v.extractLsb' lo len := by
  ext i hi
  simp only [sext32, BitVec.getElem_extractLsb', BitVec.getLsbD_signExtend]
  rw [if_pos (by omega), decide_eq_true (by omega), Bool.true_and]

theorem branchOffsetOf_field (w : Word) : (branchOffsetOf w).extractLsb' 2 16 = w.extractLsb' 0 16 := by
  rw [branchOffsetOf, sext32_extractLsb' _ (by decide) (by decide),
    BitVec.extractLsb'_append_eq_of_le (by decide), BitVec.extractLsb'_eq_self]

theorem immOf_field (w : Word) : (immOf w).extractLsb' 0 16 = w.extractLsb' 0 16 := by
  rw [immOf, sext32_extractLsb' _ (by decide) (by decide), BitVec.extractLsb'_eq_self]
end operands

/-- The Category 2 sub-opcode of an operation (R75). -/
def AluRegOp.subop : AluRegOp → BitVec 3
  | .add => 0b000#3
  | .sub => 0b001#3
  | .mul => 0b010#3
  | .and => 0b011#3
  | .or => 0b100#3
  | .xor => 0b101#3
  | .nor => 0b110#3

/-- The Category 3 sub-opcode of an operation (R76). -/
def AluImmOp.subop : AluImmOp → BitVec 3
  | .addi => 0b000#3
  | .andi => 0b001#3
  | .ori => 0b010#3
  | .xori => 0b011#3

theorem subop2_iff_subop (sub : BitVec 3) (op : AluRegOp) : subop2 sub = some op ↔ sub = op.subop :=
  subop2_eq_some_iff sub op

theorem subop3_iff_subop (sub : BitVec 3) (op : AluImmOp) : subop3 sub = some op ↔ sub = op.subop :=
  subop3_eq_some_iff sub op

theorem AluRegOp.encode_instr (op : AluRegOp) (rd rs rt : Reg) :
    encode (op.instr rd rs rt) = encodeC2 op.subop rd rs rt := by cases op <;> rfl

theorem AluImmOp.encode_instr (op : AluImmOp) (rt rs : Reg) (imm : Word) :
    encode (op.instr rt rs imm) = encodeC3 op.subop rt rs imm := by cases op <;> rfl

theorem AluRegOp.decode_encode_instr (op : AluRegOp) (rd rs rt : Reg) :
    decode (encode (op.instr rd rs rt)) = some (op.instr rd rs rt) := by
  rw [op.encode_instr, decode_of_major_110 (encodeC2_major ..), decodeCat2, encodeC2_sub,
    (subop2_iff_subop _ op).2 rfl, encodeC2_rd, encodeC2_rs, encodeC2_rt, Option.map_some]

theorem AluImmOp.decode_encode_instr (op : AluImmOp) (rt rs : Reg) {imm : Word} (h : immOk imm = true) :
    decode (encode (op.instr rt rs imm)) = some (op.instr rt rs imm) := by
  rw [op.encode_instr, decode_of_major_111 (encodeC3_major ..), decodeCat3, encodeC3_sub,
    (subop3_iff_subop _ op).2 rfl, encodeC3_rs, encodeC3_rt, immOf_eq_of_field (encodeC3_imm16 ..) h, Option.map_some]

theorem decode_encodeC1J (sub : BitVec 3) (t : BitVec 26) :
    decode (encodeC1J sub t) = decodeCat1 (encodeC1J sub t) := decode_of_major_000 (encodeC1J_major ..)

theorem decode_encodeC1B (sub : BitVec 3) (a b : BitVec 5) (k : BitVec 16) :
    decode (encodeC1B sub a b k) = decodeCat1 (encodeC1B sub a b k) := decode_of_major_000 (encodeC1B_major ..)

/-- The decoder gives back every instruction that is within its ranges. -/
theorem decode_encode {i : Instr} (h : i.wellFormed = true) : decode (encode i) = some i := by
  cases i
  case j target =>
    have ht := targetOf_eq_of_field (encodeC1J_field26 0b000#3 _) h
    simp [encode, decode_encodeC1J, decodeCat1, ht]
  case beq rs rt offset =>
    have ho := branchOffsetOf_eq_of_field (encodeC1B_imm16 0b010#3 (regBits rs) (regBits rt) _) h
    simp [encode, decode_encodeC1B, decodeCat1, ho]
  case bgtz rs offset =>
    have ho := branchOffsetOf_eq_of_field (encodeC1B_imm16 0b100#3 (regBits rs) 0#5 _) h
    simp [encode, decode_encodeC1B, decodeCat1, ho]
  case brk => simp [encode, decode_encodeC1J, decodeCat1]
  case sw rt offset base =>
    have ho := immOf_eq_of_field (encodeC1B_imm16 0b110#3 (regBits base) (regBits rt) _) h
    simp [encode, decode_encodeC1B, decodeCat1, ho]
  case lw rt offset base =>
    have ho := immOf_eq_of_field (encodeC1B_imm16 0b111#3 (regBits base) (regBits rt) _) h
    simp [encode, decode_encodeC1B, decodeCat1, ho]
  case add rd rs rt => exact AluRegOp.add.decode_encode_instr rd rs rt
  case sub rd rs rt => exact AluRegOp.sub.decode_encode_instr rd rs rt
  case mul rd rs rt => exact AluRegOp.mul.decode_encode_instr rd rs rt
  case and rd rs rt => exact AluRegOp.and.decode_encode_instr rd rs rt
  case or rd rs rt => exact AluRegOp.or.decode_encode_instr rd rs rt
  case xor rd rs rt => exact AluRegOp.xor.decode_encode_instr rd rs rt
  case nor rd rs rt => exact AluRegOp.nor.decode_encode_instr rd rs rt
  case addi rt rs imm => exact AluImmOp.addi.decode_encode_instr rt rs h
  case andi rt rs imm => exact AluImmOp.andi.decode_encode_instr rt rs h
  case ori rt rs imm => exact AluImmOp.ori.decode_encode_instr rt rs h
  case xori rt rs imm => exact AluImmOp.xori.decode_encode_instr rt rs h

/-! ### Decoding and encoding back (40_decoder.md R109) -/

section formats
variable (w : Word)

/-- A word is the concatenation of its fields, format by format (R72). -/
theorem eq_cat2_fields : majorOf w ++ w.extractLsb' 24 5 ++ w.extractLsb' 19 5 ++ subAluOf w ++ w.extractLsb' 11 5 ++
    w.extractLsb' 0 11 = w := by
  rw [majorOf, subAluOf]
  simp only [BitVec.extractLsb'_append_extractLsb'_eq_extractLsb', BitVec.extractLsb'_eq_self]

theorem eq_cat3_fields : majorOf w ++ w.extractLsb' 24 5 ++ w.extractLsb' 19 5 ++ subAluOf w ++ w.extractLsb' 0 16 =
    w := by
  rw [majorOf, subAluOf]
  simp only [BitVec.extractLsb'_append_extractLsb'_eq_extractLsb', BitVec.extractLsb'_eq_self]

theorem eq_cat1b_fields : majorOf w ++ sub1Of w ++ w.extractLsb' 21 5 ++ w.extractLsb' 16 5 ++ w.extractLsb' 0 16 =
    w := by
  rw [majorOf, sub1Of]
  simp only [BitVec.extractLsb'_append_extractLsb'_eq_extractLsb', BitVec.extractLsb'_eq_self]

theorem eq_cat1j_fields : majorOf w ++ sub1Of w ++ w.extractLsb' 0 26 = w := by
  rw [majorOf, sub1Of]
  simp only [BitVec.extractLsb'_append_extractLsb'_eq_extractLsb', BitVec.extractLsb'_eq_self]
variable {w}

theorem encodeC1J_of_fields (hm : majorOf w = 0b000#3) : encodeC1J (sub1Of w) (w.extractLsb' 0 26) = w := by
  rw [encodeC1J, ← hm, eq_cat1j_fields]

theorem encodeC1B_of_fields (hm : majorOf w = 0b000#3) :
    encodeC1B (sub1Of w) (regBits (rs1Of w)) (regBits (rt1Of w)) (w.extractLsb' 0 16) = w := by
  rw [encodeC1B, rs1Of, rt1Of, regBits_regAt, regBits_regAt, ← hm, eq_cat1b_fields]

theorem encodeC3_of_fields (hm : majorOf w = 0b111#3) :
    encodeC3 (subAluOf w) (rtAluOf w) (rsAluOf w) (immOf w) = w := by
  rw [encodeC3, rsAluOf, rtAluOf, regBits_regAt, regBits_regAt, immOf_field, ← hm, eq_cat3_fields]

/-- Clearing instr[10:0] of a Category 2 word leaves what the encoder builds from its fields. -/
theorem encodeC2_of_fields (hm : majorOf w = 0b110#3) :
    encodeC2 (subAluOf w) (rdOf w) (rsAluOf w) (rtAluOf w) = w &&& 0xFFFFF800#32 := by
  rw [encodeC2, rdOf, rsAluOf, rtAluOf, regBits_regAt, regBits_regAt, regBits_regAt, ← hm]
  calc
    _ = (majorOf w ++ w.extractLsb' 24 5 ++ w.extractLsb' 19 5 ++ subAluOf w ++ w.extractLsb' 11 5 ++
          w.extractLsb' 0 11) &&& (BitVec.allOnes 21 ++ 0#11) := by
        rw [BitVec.and_append, BitVec.and_allOnes, BitVec.and_zero]
    _ = w &&& 0xFFFFF800#32 := by rw [eq_cat2_fields]; rfl
end formats

/-- Clearing the rt field gives the encoding with no rt, as in BGTZ. -/
theorem encodeC1B_clear_rt (sub : BitVec 3) (rs rt : BitVec 5) (imm16 : BitVec 16) :
    encodeC1B sub rs 0#5 imm16 = encodeC1B sub rs rt imm16 &&& 0xFFE0FFFF#32 := by
  change 0b000#3 ++ sub ++ rs ++ 0#5 ++ imm16 =
    (0b000#3 ++ sub ++ rs ++ rt ++ imm16) &&& (BitVec.allOnes 11 ++ 0#5 ++ BitVec.allOnes 16)
  rw [BitVec.and_append, BitVec.and_append, BitVec.and_allOnes, BitVec.and_zero, BitVec.and_allOnes]

/-- Clearing the 26-bit field gives the encoding with no operand, as in BREAK. -/
theorem encodeC1J_clear_field26 (sub : BitVec 3) (field26 : BitVec 26) :
    encodeC1J sub 0#26 = encodeC1J sub field26 &&& 0xFC000000#32 := by
  change 0b000#3 ++ sub ++ 0#26 = (0b000#3 ++ sub ++ field26) &&& (BitVec.allOnes 6 ++ 0#26)
  rw [BitVec.and_append, BitVec.and_allOnes, BitVec.and_zero]

theorem and_all_used (w : Word) : w &&& 0xFFFFFFFF#32 = w := BitVec.and_allOnes

/-- The encoder gives back every word that decodes, with its unused bits cleared. -/
theorem encode_of_decode {w : Word} {i : Instr} (h : decode w = some i) : encode i = w &&& i.usedBits := by
  rcases decode_cases h with ⟨hm, hi⟩ | ⟨hm, op, ho, rfl⟩ | ⟨hm, op, ho, rfl⟩
  · have hJ := encodeC1J_of_fields hm
    have hB := encodeC1B_of_fields hm
    rcases hi with ⟨hs, rfl⟩ | ⟨hs, rfl⟩ | ⟨hs, rfl⟩ | ⟨hs, rfl⟩ | ⟨hs, rfl⟩ | ⟨hs, rfl⟩ <;>
      rw [hs] at hJ hB <;> simp only [encode, Instr.usedBits, targetOf_field, branchOffsetOf_field, immOf_field]
    · rw [hJ, and_all_used]
    · rw [hB, and_all_used]
    · rw [encodeC1B_clear_rt, hB]
    · rw [encodeC1J_clear_field26, hJ]
    · rw [hB, and_all_used]
    · rw [hB, and_all_used]
  · rw [op.encode_instr, op.usedBits_instr, ← (subop2_iff_subop _ op).1 ho, encodeC2_of_fields hm]
  · rw [op.encode_instr, op.usedBits_instr, ← (subop3_iff_subop _ op).1 ho, encodeC3_of_fields hm, and_all_used]

/-- Settles O3: each operand range is what its field can hold, and a word is the concatenation of its fields. -/
theorem encodeAndDecodeAreInverse : Obligations.EncodeAndDecodeAreInverse :=
  ⟨fun _ => decode_encode, fun _ _ => encode_of_decode⟩

/-- Settles O4: by the decoder's cases, each operand's field has the range of its row. -/
theorem decodedOperandsAreInRange : Obligations.DecodedOperandsAreInRange := fun _ _ => decode_wellFormed

/-! ### signedValue (40_decoder.md R102, R103) -/

/-- The procedure of R102 reads the sign at bit `n` and the rest below it: both cases are the two's-complement value. -/
theorem signedValue_eq_toInt {n : Nat} (bits : BitVec (n + 1)) : signedValue bits = bits.toInt := by
  have hlt := bits.isLt
  have hpow : 2 ^ (n + 1) = 2 * 2 ^ n := Nat.pow_succ'
  rw [signedValue, BitVec.toInt_eq_msb_cond, BitVec.toNat_not, BitVec.toNat_setWidth]
  by_cases hneg : 2 ^ n ≤ bits.toNat
  · have hrest : bits.toNat % 2 ^ n = bits.toNat - 2 ^ n := by
      rw [Nat.mod_eq_sub_mod hneg, Nat.mod_eq_of_lt (by omega)]
    have hmsb : bits.msb = true := BitVec.msb_eq_toNat.trans (decide_eq_true hneg)
    rw [if_pos hmsb, if_pos hmsb, hrest, hpow]
    omega
  · have hmsb : ¬ bits.msb = true := by simpa [BitVec.msb_eq_toNat] using hneg
    rw [if_neg hmsb, if_neg hmsb, Nat.mod_eq_of_lt (by omega)]

/-- Settles O6: `signedValue` is `BitVec.toInt`, and sign extension keeps that value. -/
theorem signedValueIsTwosComplement : Obligations.SignedValueIsTwosComplement := by
  refine ⟨fun n bits => signedValue_eq_toInt bits, fun n bits _ => ?_, fun n v hlo hhi => ?_⟩
  · rw [signedValue_eq_toInt]
    rfl
  · rw [signedValue_eq_toInt, BitVec.toInt_ofInt_eq_self n.succ_pos hlo (by simpa using Int.lt_of_le_sub_one hhi)]

end Sys2Proof

namespace Sys2Proof.Machine

/-! ### A step answers (40_decoder.md R110, 20_memory.md R47) -/

/-- Executing an instruction always answers a next state. -/
theorem exec_next (i : Instr) (s : State) : ∃ t, exec i s = .next t := by
  rcases exec_cases i s with ⟨_, e, -⟩ | ⟨-, e⟩ | ⟨_, _, -, e⟩ | ⟨_, _, _, -, -, e⟩ | ⟨_, _, _, -, -, e⟩ |
    ⟨_, _, _, -, -, e⟩ <;> exact ⟨_, e⟩

/-- Settles O32: in Running the fetch faults, or it reads a word of the loaded image, and such a word decodes. -/
theorem stepNeverStopsUnderInv : Obligations.StepNeverStopsUnderInv := by
  rintro s ⟨-, -, himage, -, -, -⟩
  by_cases hr : s.run = .running
  · rcases ifetch_cases s s.pc with ⟨w, hf, ha, -, -, hw⟩ | ⟨hf, -⟩
    · obtain ⟨-, -, -, hwords⟩ := himage.codeRegionOk hr
      obtain ⟨i, hd, -⟩ := hwords s.pc w ha hw
      obtain ⟨u, he⟩ := exec_next i s
      rw [step_of_decoded hr hf hd, he]
      exact ⟨_, rfl⟩
    · exact ⟨_, step_of_fetch_error hr hf⟩
  · exact ⟨s, step_of_not_running hr⟩

/-! ### The decoder block (40_decoder.md R111) -/

theorem tag_lt (i : Instr) : i.tag < 32 := by cases i <;> simp [Instr.tag]

theorem indexOutput_toNat (port : Nat) (w : Word) (r : Reg) : (indexOutput port w (some r)).toNat = r.val :=
  regBits_toNat r

section decoderOutputs
variable {w : Word}

theorem decoderOutputs_ok_of_none (h : decode w = none) : (decoderOutputs w).ok = false := by
  simp only [decoderOutputs, h]

/-- The outputs of a word that decodes. -/
theorem decoderOutputs_of_some {i : Instr} (h : decode w = some i) :
    decoderOutputs w =
      { ok := true
        tag := BitVec.ofNat 5 i.tag
        rs := indexOutput 0 w (rsField i)
        rt := indexOutput 1 w (rtField i)
        rd := indexOutput 2 w (rdField i)
        operand := (operandField i).getD (Config.unspecifiedOperand w) } := by
  simp only [decoderOutputs, h]

theorem decoderOutputs_ok_iff : (decoderOutputs w).ok = false ↔ decode w = none := by
  cases h : decode w with
  | none => exact iff_of_true (decoderOutputs_ok_of_none h) rfl
  | some i => simp [decoderOutputs_of_some h]
end decoderOutputs

/-- Settles O8: the tag fits its five bits, and each output is the constructor's field where it has one. -/
theorem decoderBlockOutputs : Obligations.DecoderBlockOutputs := by
  refine ⟨fun w => decoderOutputs_ok_iff, fun w i h => ?_⟩
  rw [decoderOutputs_of_some h]
  refine ⟨Nat.mod_eq_of_lt (tag_lt i), fun r hr => ?_, fun r hr => ?_, fun r hr => ?_, fun v hv => ?_⟩ <;> dsimp only
  · rw [hr, indexOutput_toNat]
  · rw [hr, indexOutput_toNat]
  · rw [hr, indexOutput_toNat]
  · rw [hv, Option.getD_some]

end Sys2Proof.Machine

/-! ### The words of J, BEQ, BGTZ and BREAK (41_control_transfer.md R121 to R124) -/

namespace Sys2Proof

/-- The fixed bits of an instruction's row are among the bits the decoder reads. -/
theorem usedBits_and_rowMask (i : Instr) : i.usedBits &&& i.rowMask = i.rowMask := by
  cases i
  case brk => exact BitVec.and_self
  case bgtz => exact (by decide : 0xFFE0FFFF#32 &&& 0xFC000000#32 = 0xFC000000#32)
  case add | sub | mul | and | or | xor | nor => exact (by decide : 0xFFFFF800#32 &&& 0xE0070000#32 = 0xE0070000#32)
  case j | beq | sw | lw | addi | andi | ori | xori => exact BitVec.allOnes_and

/-- A word that decodes has its row's match value in its row's mask. -/
theorem and_rowMask_of_decode {w : Word} {i : Instr} (h : decode w = some i) (hrow : Laws.RowMatch.Statement i) :
    w &&& i.rowMask = i.rowMatch := by
  calc
    w &&& i.rowMask = w &&& i.usedBits &&& i.rowMask := by rw [BitVec.and_assoc, usedBits_and_rowMask]
    _ = encode i &&& i.rowMask := by rw [encode_of_decode h]
    _ = i.rowMatch := hrow

/-- The six fixed bits of a Category 1 row are the major opcode 000 and the row's sub-opcode (R71, R74). -/
theorem decode_of_cat1_mask {w : Word} {sub : BitVec 3} (h : w &&& 0xFC000000#32 = encodeC1J sub 0#26) :
    decode w = decodeCat1 w ∧ sub1Of w = sub := by
  rw [encodeC1J_clear_field26 sub 0#26] at h
  have hmajor : majorOf w = 0b000#3 := (extractLsb'_congr_of_mask h (by decide)).trans (encodeC1J_major sub _)
  have hsub : sub1Of w = sub := (extractLsb'_congr_of_mask h (by decide)).trans (encodeC1J_sub sub _)
  exact ⟨decode_of_major_000 hmajor, hsub⟩

/-- The jump target is 4 × unsigned(instr[25:0]) (R77). -/
theorem targetOf_eq (w : Word) : targetOf w = BitVec.ofNat 32 (4 * (w.toNat % 2 ^ 26)) := by
  rw [targetOf, zext32, ← BitVec.ofNat_toNat, append_two_zeros_toNat, BitVec.extractLsb'_toNat, Nat.shiftRight_zero]

/-- Two zero bits at the end scale the signed reading by 4 too. -/
theorem append_two_zeros_toInt {n : Nat} (x : BitVec n) : (x ++ 0b00#2).toInt = 4 * x.toInt := by
  rw [BitVec.toInt_eq_toNat_cond, BitVec.toInt_eq_toNat_cond, append_two_zeros_toNat, Nat.pow_add]
  split <;> split <;> omega

/-- The branch offset is 4 × signed(instr[15:0]) (R78). -/
theorem branchOffsetOf_eq (w : Word) : branchOffsetOf w = wrap32 (4 * (w.extractLsb' 0 16).toInt) := by
  rw [wrap32, ← append_two_zeros_toInt]
  rfl

theorem jump_words (w : Word) : w &&& 0xFC000000#32 = 0x00000000#32 ↔
    decode w = some (.j (BitVec.ofNat 32 (4 * (w.toNat % 2 ^ 26)))) := by
  refine ⟨fun h => ?_, fun h => and_rowMask_of_decode h (Laws.RowMatch.j _)⟩
  obtain ⟨hcat, hsub⟩ := decode_of_cat1_mask (sub := 0b000#3) h
  rw [hcat, ← targetOf_eq]
  simp [decodeCat1, hsub]

theorem beq_words (w : Word) : w &&& 0xFC000000#32 = 0x08000000#32 ↔
    decode w = some (.beq (regAt w 21) (regAt w 16) (wrap32 (4 * (w.extractLsb' 0 16).toInt))) := by
  refine ⟨fun h => ?_, fun h => and_rowMask_of_decode h (Laws.RowMatch.beq _ _ _)⟩
  obtain ⟨hcat, hsub⟩ := decode_of_cat1_mask (sub := 0b010#3) h
  rw [hcat, ← branchOffsetOf_eq]
  simp [decodeCat1, hsub, rs1Of, rt1Of]

theorem bgtz_words (w : Word) : w &&& 0xFC000000#32 = 0x10000000#32 ↔
    decode w = some (.bgtz (regAt w 21) (wrap32 (4 * (w.extractLsb' 0 16).toInt))) := by
  refine ⟨fun h => ?_, fun h => and_rowMask_of_decode h (Laws.RowMatch.bgtz _ _)⟩
  obtain ⟨hcat, hsub⟩ := decode_of_cat1_mask (sub := 0b100#3) h
  rw [hcat, ← branchOffsetOf_eq]
  simp [decodeCat1, hsub, rs1Of]

theorem break_words (w : Word) : w &&& 0xFC000000#32 = 0x14000000#32 ↔ decode w = some .brk := by
  refine ⟨fun h => ?_, fun h => and_rowMask_of_decode h Laws.RowMatch.brk⟩
  obtain ⟨hcat, hsub⟩ := decode_of_cat1_mask (sub := 0b101#3) h
  rw [hcat]
  simp [decodeCat1, hsub]

end Sys2Proof

namespace Sys2Proof.Machine

/-! ### The two conditions and the branch (41_control_transfer.md R122, R123) -/

theorem equalCondition_iff {a b : Word} : equalCondition a b = true ↔ a = b := beq_iff_eq

theorem positiveCondition_iff {a : Word} : positiveCondition a = true ↔ 0 < a.toInt := decide_eq_true_iff

/-- A signed reading is above 0 exactly when the value is not 0 and bit 31 is clear. -/
theorem toInt_pos_iff (a : Word) : 0 < a.toInt ↔ ¬ (a = 0#32 ∨ a.getLsbD 31 = true) := by
  have hzero : a = 0#32 ↔ a.toInt = 0 := by rw [← BitVec.toInt_inj, BitVec.toInt_zero]
  have hneg : a.getLsbD 31 = true ↔ a.toInt < 0 := by
    rw [← BitVec.msb_eq_getLsbD_last a, BitVec.msb_eq_toInt, decide_eq_true_iff]
  rw [hzero, hneg]
  omega

section branches
variable {rs rt : Reg} {offset : Word} {s : State}

theorem branch_taken {taken : Bool} (h : taken = true) :
    branch taken offset s = { s with pc := s.pc + 4#32 + offset, cycle := s.cycle + 1 } := by
  subst h
  rfl

theorem branch_not_taken {taken : Bool} (h : ¬ taken = true) :
    branch taken offset s = { s with pc := s.pc + 4#32, cycle := s.cycle + 1 } := by
  rw [branch, if_neg h]
  rfl

theorem exec_beq_of_eq (h : s.reg rs = s.reg rt) :
    exec (.beq rs rt offset) s = .next { s with pc := s.pc + 4#32 + offset, cycle := s.cycle + 1 } :=
  congrArg _ (branch_taken (equalCondition_iff.2 h))

theorem exec_beq_of_ne (h : s.reg rs ≠ s.reg rt) :
    exec (.beq rs rt offset) s = .next { s with pc := s.pc + 4#32, cycle := s.cycle + 1 } :=
  congrArg _ (branch_not_taken (mt equalCondition_iff.1 h))

theorem exec_bgtz_of_pos (h : 0 < (s.reg rs).toInt) :
    exec (.bgtz rs offset) s = .next { s with pc := s.pc + 4#32 + offset, cycle := s.cycle + 1 } :=
  congrArg _ (branch_taken (positiveCondition_iff.2 h))

theorem exec_bgtz_of_not_pos (h : ¬ 0 < (s.reg rs).toInt) :
    exec (.bgtz rs offset) s = .next { s with pc := s.pc + 4#32, cycle := s.cycle + 1 } :=
  congrArg _ (branch_not_taken (mt positiveCondition_iff.1 h))
end branches

/-- The BREAK cycle halts and emits its record like any other (R175, R177). -/
theorem step_of_break {s : State} {w : Word} (hr : s.run = .running) (hf : s.ifetch s.pc = .ok w)
    (hd : decode w = some .brk) :
    step s = .next { s with run := .halted, trace :=
      { pc := s.pc, cycle := s.cycle, instr := .brk, regs := s.regs, dmem := s.dmem } :: s.trace } :=
  step_of_decoded hr hf hd

/-- Settles O36: the row's words, and J's one commit. -/
theorem jumpRule : Obligations.JumpRule := ⟨jump_words, fun _ _ => rfl, fun _ => rfl⟩

/-- Settles O37: the row's words, and the branch by whether the two registers are equal. -/
theorem branchIfEqualRule : Obligations.BranchIfEqualRule :=
  ⟨beq_words, fun _ _ _ _ => exec_beq_of_eq, fun _ _ _ _ => exec_beq_of_ne, fun _ _ _ => rfl⟩

/-- Settles O38: the row's words, and the branch by the sign: not positive means 0 or bit 31 set. -/
theorem branchIfGreaterThanZeroRule : Obligations.BranchIfGreaterThanZeroRule := by
  refine ⟨bgtz_words, fun _ _ _ => exec_bgtz_of_pos, fun rs offset s h => ?_, fun a => ?_, fun _ _ => rfl⟩
  · exact exec_bgtz_of_not_pos fun hpos => (toInt_pos_iff _).1 hpos h
  · rw [toInt_pos_iff]
    exact (Decidable.em _).symm

/-- Settles O39: the row's words, the halt, and its cycle, after which the machine is not running. -/
theorem breakRule : Obligations.BreakRule :=
  ⟨break_words, fun _ => rfl,
    fun _ _ hr hf hd => ⟨_, step_of_break hr hf hd, step_of_not_running (by simp), rfl⟩, rfl⟩

/-- Settles O55: J, BEQ and BGTZ only commit a next pc, and BREAK only halts. -/
theorem controlFrame : Obligations.ControlFrame := by
  intro i s t hi h
  have hcases : (i ≠ .brk ∧ ∃ n, t = s.commit n) ∨ (i = .brk ∧ t = { s with run := .halted }) := by
    rcases hi with ⟨target, rfl⟩ | ⟨rs, rt, offset, rfl⟩ | ⟨rs, offset, rfl⟩ | rfl <;> cases h
    · exact .inl ⟨by simp, _, rfl⟩
    · exact .inl ⟨by simp, _, rfl⟩
    · exact .inl ⟨by simp, _, rfl⟩
    · exact .inr ⟨rfl, rfl⟩
  rcases hcases with ⟨hne, n, rfl⟩ | ⟨rfl, rfl⟩
  · exact ⟨fun _ => rfl, rfl, rfl, rfl, fun _ => rfl, fun _ => rfl, fun _ => ⟨rfl, rfl⟩, fun hbrk => absurd hbrk hne⟩
  · exact ⟨fun _ => rfl, rfl, rfl, rfl, fun _ => rfl, fun _ => rfl, fun hne => absurd rfl hne, fun _ => ⟨rfl, rfl⟩⟩

end Sys2Proof.Machine

/-! ### The words of SW and LW (42_load_store.md R131, R132) -/

namespace Sys2Proof

/-- The memory offset is signed(instr[15:0]) (R79). -/
theorem immOf_eq (w : Word) : immOf w = wrap32 (w.extractLsb' 0 16).toInt := rfl

theorem immOf_toInt (w : Word) : (immOf w).toInt = (w.extractLsb' 0 16).toInt :=
  BitVec.toInt_signExtend_of_le (by omega)

theorem sw_words (w : Word) : w &&& 0xFC000000#32 = 0x18000000#32 ↔
    decode w = some (.sw (regAt w 16) (wrap32 (w.extractLsb' 0 16).toInt) (regAt w 21)) := by
  refine ⟨fun h => ?_, fun h => and_rowMask_of_decode h (Laws.RowMatch.sw _ _ _)⟩
  obtain ⟨hcat, hsub⟩ := decode_of_cat1_mask (sub := 0b110#3) h
  rw [hcat, ← immOf_eq]
  simp [decodeCat1, hsub, rs1Of, rt1Of]

theorem lw_words (w : Word) : w &&& 0xFC000000#32 = 0x1C000000#32 ↔
    decode w = some (.lw (regAt w 16) (wrap32 (w.extractLsb' 0 16).toInt) (regAt w 21)) := by
  refine ⟨fun h => ?_, fun h => and_rowMask_of_decode h (Laws.RowMatch.lw _ _ _)⟩
  obtain ⟨hcat, hsub⟩ := decode_of_cat1_mask (sub := 0b111#3) h
  rw [hcat, ← immOf_eq]
  simp [decodeCat1, hsub, rs1Of, rt1Of]

/-- The offset and the base of a decoded LW or SW are the word's fields: its row's words have no other decoding. -/
theorem decode_memory_fields {w : Word} {rt base : Reg} {offset : Word}
    (h : decode w = some (.lw rt offset base) ∨ decode w = some (.sw rt offset base)) :
    offset = immOf w ∧ base = regAt w 21 := by
  rcases h with h | h
  · have hfields := (lw_words w).1 (and_rowMask_of_decode h (Laws.RowMatch.lw _ _ _))
    rw [h] at hfields
    cases hfields
    exact ⟨(immOf_eq w).symm, rfl⟩
  · have hfields := (sw_words w).1 (and_rowMask_of_decode h (Laws.RowMatch.sw _ _ _))
    rw [h] at hfields
    cases hfields
    exact ⟨(immOf_eq w).symm, rfl⟩

end Sys2Proof

namespace Sys2Proof.Machine

/-! ### What executing an instruction leaves unchanged (10_state.md R21, R32) -/

section frame
variable {i : Instr} {s t : State}

/-- An instruction writes no register but its destination. -/
theorem exec_reg_of_not_dest (h : exec i s = .next t) {r : Reg} (hr : destReg i ≠ some r) : t.reg r = s.reg r := by
  rcases exec_cases i s with ⟨_, e, -⟩ | ⟨-, e⟩ | ⟨d, v, hd, e⟩ | ⟨_, _, _, -, -, e⟩ | ⟨_, _, _, -, -, e⟩ |
    ⟨_, _, _, -, -, e⟩ <;> rw [e] at h <;> cases h
  case inr.inr.inl =>
    have hne : r ≠ d := by
      rintro rfl
      exact hr hd
    rw [State.commit_reg, State.setReg_reg_other _ _ _ hne]
  all_goals rfl

/-- An instruction writes no byte of DMEM outside the word it stores. -/
theorem exec_dmem_outside_store (h : exec i s = .next t) {a : Nat}
    (ha : ∀ ea, storeAddress i s = some ea → a < ea.toNat ∨ ea.toNat + 4 ≤ a) :
    Memory.readByte t.dmem a = Memory.readByte s.dmem a := by
  rcases exec_cases i s with ⟨_, e, -⟩ | ⟨-, e⟩ | ⟨_, _, -, e⟩ | ⟨rt, offset, base, rfl, -, e⟩ | ⟨_, _, _, -, -, e⟩ |
    ⟨_, _, _, -, -, e⟩ <;> rw [e] at h <;> cases h
  case inr.inr.inr.inl => exact Memory.readByte_writeWord_outside _ _ (ha _ rfl)
  all_goals rfl

/-- In every state, an instruction other than BREAK completes its cycle or takes a fault (R176, R180). -/
theorem exec_commits_or_faults (hi : i ≠ .brk) (h : exec i s = .next t) :
    (t.run = s.run ∧ t.fault = s.fault ∧ t.cycle = s.cycle + 1) ∨ ∃ f, t = s.takeFault f := by
  rcases exec_cases i s with ⟨_, e, -⟩ | ⟨hbrk, -⟩ | ⟨_, _, -, e⟩ | ⟨_, _, _, -, -, e⟩ | ⟨_, _, _, -, -, e⟩ |
    ⟨_, _, _, -, -, e⟩
  case inr.inl => exact absurd hbrk hi
  all_goals
    rw [e] at h
    cases h
  · exact .inl ⟨rfl, rfl, rfl⟩
  · exact .inl ⟨rfl, rfl, rfl⟩
  · exact .inl ⟨rfl, rfl, rfl⟩
  · exact .inr ⟨_, rfl⟩
  · exact .inr ⟨_, rfl⟩
end frame

/-- Settles O56: what holds of every instruction but BREAK holds of LW and SW. -/
theorem loadStoreFrame : Obligations.LoadStoreFrame := by
  intro i s t hi h
  have hne : i ≠ .brk := by
    rcases hi with ⟨_, _, _, rfl⟩ | ⟨_, _, _, rfl⟩ <;> simp
  obtain ⟨himem, hce, htrace⟩ := exec_frame h
  exact ⟨fun r => exec_reg_of_not_dest h, hce, htrace, fun a => by rw [himem],
    fun a => exec_dmem_outside_store h, exec_commits_or_faults hne h⟩

/-! ### Loads and stores, address by address (42_load_store.md R130 to R132) -/

/-- The effective address as a number: the exact sum modulo 2^32. -/
theorem State.effectiveAddress_toNat (s : State) (base : Reg) (offset : Word) :
    ((s.effectiveAddress base offset).toNat : Int) = ((s.reg base).toNat + offset.toInt) % 4294967296 := by
  rw [State.effectiveAddress, wrap32, BitVec.toNat_ofInt]
  omega

/-- Settles O41: the fields of the row's words, the sum, and the registers that SW and LW leave. -/
theorem effectiveAddressRule : Obligations.EffectiveAddressRule := by
  refine ⟨fun w rt base offset h => ?_, State.effectiveAddress_toNat,
    fun rt base offset s t h => exec_reg_of_not_dest h (by simp [destReg]),
    fun rt base offset s t h hne => exec_reg_of_not_dest h (by simpa [destReg] using hne)⟩
  obtain ⟨rfl, rfl⟩ := decode_memory_fields h
  exact ⟨immOf_toInt w, rfl⟩

/-- A LW from an address that is misaligned or not mapped takes the fault. -/
theorem exec_lw_of_no_word {rt base : Reg} {offset : Word} {s : State}
    (h : (s.reg base + offset).toNat % 4 ≠ 0 ∨ Memory.readWord s.dmem (s.reg base + offset).toNat = none) :
    exec (.lw rt offset base) s = .next (s.takeFault (.unmappedAddress .load (s.reg base + offset))) := by
  rw [← State.effectiveAddress_eq] at h ⊢
  rcases execLw_cases rt offset base s with ⟨v, -, ha, hv⟩ | ⟨hfault, -⟩
  · rcases h with hn | hnone
    · exact absurd ha hn
    · rw [hv] at hnone
      cases hnone
  · exact hfault

/-- Settles O44: the row's words, and the store by whether its address is aligned. -/
theorem storeWordRule : Obligations.StoreWordRule := by
  refine ⟨sw_words, fun rt base offset s ha => ?_, fun _ _ _ _ => exec_sw_of_misaligned, fun _ _ _ => rfl⟩
  exact ⟨_, exec_sw_of_aligned ha, Memory.readWord_writeWord_same _ _ _,
    fun a => Memory.readByte_writeWord_outside _ _, rfl⟩

/-- Settles O45: the row's words, and the load by whether DMEM has an aligned word at its address. -/
theorem loadWordRule : Obligations.LoadWordRule :=
  ⟨lw_words, fun _ _ _ _ _ ha hv => ⟨_, exec_lw_of_word ha hv, registerWritten_setReg_commit _ _ _⟩,
    fun _ _ _ _ => exec_lw_of_no_word, fun _ _ _ => rfl⟩

end Sys2Proof.Machine

/-! ### The words of the register-register ALU instructions (43_alu_register.md R141 to R147) -/

namespace Sys2Proof

/-- The six fixed bits of a Category 2 row are the major opcode 110 and the row's sub-opcode (R71, R75). -/
theorem decode_of_cat2_mask {w : Word} {sub : BitVec 3} (h : w &&& 0xE0070000#32 = encodeC2 sub 0 0 0) :
    decode w = decodeCat2 subop2 w ∧ subAluOf w = sub := by
  have hmask : w &&& 0xE0070000#32 = encodeC2 sub 0 0 0 &&& 0xE0070000#32 :=
    h.trans (cat2_fixed sub _ _ _ _).symm
  have hmajor : majorOf w = 0b110#3 := (extractLsb'_congr_of_mask hmask (by decide)).trans (encodeC2_major ..)
  have hsub : subAluOf w = sub := (extractLsb'_congr_of_mask hmask (by decide)).trans (encodeC2_sub ..)
  exact ⟨decode_of_major_110 hmajor, hsub⟩

/-- The decoder reads every fixed bit of a Category 2 row, and the encoder puts the row's match value there. -/
theorem AluRegOp.and_mask_of_decode (op : AluRegOp) {w : Word} {rd rs rt : Reg}
    (h : decode w = some (op.instr rd rs rt)) : w &&& 0xE0070000#32 = encodeC2 op.subop 0 0 0 := by
  calc
    w &&& 0xE0070000#32 = w &&& 0xFFFFF800#32 &&& 0xE0070000#32 := by rw [BitVec.and_assoc]; rfl
    _ = encodeC2 op.subop rd rs rt &&& 0xE0070000#32 := by
        rw [← op.encode_instr, encode_of_decode h, op.usedBits_instr]
    _ = encodeC2 op.subop 0 0 0 := cat2_fixed _ _ _ _ _

/-- The words of a Category 2 operation are exactly those that match its row. -/
theorem AluRegOp.words (op : AluRegOp) (w : Word) : w &&& 0xE0070000#32 = encodeC2 op.subop 0 0 0 ↔
    decode w = some (op.instr (regAt w 11) (regAt w 24) (regAt w 19)) := by
  refine ⟨fun h => ?_, op.and_mask_of_decode⟩
  obtain ⟨hcat, hsub⟩ := decode_of_cat2_mask h
  rw [hcat, decodeCat2, (subop2_iff_subop _ op).2 hsub]
  rfl

/-! ### The results of the register-register ALU instructions (43_alu_register.md R140) -/

section results
open Sys2Proof.Machine

/-- The ALU operation a Category 2 sub-opcode selects. -/
def AluRegOp.result : AluRegOp → Word → Word → Word
  | .add => aluAdd
  | .sub => aluSub
  | .mul => aluMul
  | .and => aluAnd
  | .or => aluOr
  | .xor => aluXor
  | .nor => aluNor

theorem AluRegOp.exec_instr (op : AluRegOp) (rd rs rt : Reg) (s : State) :
    exec (op.instr rd rs rt) s = .next (aluRegister op.result rd rs rt s) := by cases op <;> rfl

theorem AluRegOp.exec_registerWritten (op : AluRegOp) (rd rs rt : Reg) (s : State) :
    ∃ t, exec (op.instr rd rs rt) s = .next t ∧ registerWritten s t rd (op.result (s.reg rs) (s.reg rt)) :=
  ⟨_, op.exec_instr rd rs rt s, registerWritten_setReg_commit _ _ _⟩

/-- Both sources are read before the destination is written (R151), so this holds whichever registers coincide. -/
theorem AluRegOp.exec_dest (op : AluRegOp) {rd rs rt : Reg} {s t : State}
    (h : exec (op.instr rd rs rt) s = .next t) : t.reg rd = op.result (s.reg rs) (s.reg rt) := by
  obtain ⟨u, hu, hdest, -⟩ := op.exec_registerWritten rd rs rt s
  rw [h] at hu
  cases hu
  exact hdest
end results

/-! ### wrap32 (00_scope.md R8) -/

theorem wrap32_add (x y : Int) : wrap32 (x + y) = wrap32 x + wrap32 y := BitVec.ofInt_add x y

theorem wrap32_mul (x y : Int) : wrap32 (x * y) = wrap32 x * wrap32 y := BitVec.ofInt_mul x y

theorem wrap32_neg (x : Int) : wrap32 (-x) = -wrap32 x := BitVec.ofInt_neg

theorem wrap32_sub (x y : Int) : wrap32 (x - y) = wrap32 x - wrap32 y := by
  rw [Int.sub_eq_add_neg, wrap32_add, wrap32_neg, BitVec.sub_eq_add_neg]

/-- `wrap32` undoes the signed reading. -/
@[simp] theorem wrap32_toInt (a : Word) : wrap32 a.toInt = a := BitVec.ofInt_toInt

/-- `wrap32` undoes the unsigned reading. -/
@[simp] theorem wrap32_toNat (a : Word) : wrap32 (a.toNat : Int) = a := by
  rw [wrap32, BitVec.ofInt_natCast, BitVec.ofNat_toNat, BitVec.setWidth_eq]

theorem toInt_wrap32_of_range {z : Int} (hlo : -2147483648 ≤ z) (hhi : z ≤ 2147483647) : (wrap32 z).toInt = z :=
  BitVec.toInt_ofInt_eq_self (by decide) hlo (Int.lt_of_le_sub_one hhi)

end Sys2Proof

namespace Sys2Proof.Machine

/-! ### The ALU's operations on words (43_alu_register.md R148 to R150) -/

section operations
variable (a b : Word)

theorem aluMul_eq : aluMul a b = a * b := by rw [aluMul, wrap32_mul, wrap32_toInt, wrap32_toInt]

/-- The low word of a sign-extended operand is the operand. -/
theorem extractLsb'_signExtend_64 : (a.signExtend 64).extractLsb' 0 32 = a := by
  ext i hi
  rw [BitVec.getElem_extractLsb', BitVec.getLsbD_signExtend, Nat.zero_add, if_pos hi, decide_eq_true (by omega),
    Bool.true_and, BitVec.getLsbD_eq_getElem hi]

/-- R149: the low word of a product depends on the factors' low words only. -/
theorem aluMul_eq_low_word : aluMul a b = (a.signExtend 64 * b.signExtend 64).extractLsb' 0 32 := by
  rw [BitVec.extractLsb'_mul (by decide), extractLsb'_signExtend_64, extractLsb'_signExtend_64, aluMul_eq]

/-- Multiplying by the word of -1 negates. -/
theorem aluMul_neg_one : aluMul a 0xFFFFFFFF#32 = -a := by
  rw [aluMul_eq]
  change a * -1#32 = -a
  rw [BitVec.mul_neg, BitVec.mul_one]

/-- The complement as a signed number; `-x - 1` is always in range. -/
theorem toInt_complement : (~~~a).toInt = -a.toInt - 1 := by
  have hword : ~~~a = wrap32 (-a.toInt - 1) := by
    rw [wrap32_sub, wrap32_neg, wrap32_toInt, BitVec.not_eq_neg_add]
    rfl
  have hlo := BitVec.le_toInt a
  have hhi := BitVec.toInt_lt (x := a)
  rw [hword, toInt_wrap32_of_range (by omega) (by omega)]
end operations

/-- A word that is the low 32 bits of an exact result `z`, which agrees modulo 2^32 with that of other readings, is `z`
itself where `z` is in range (R148). -/
theorem wraps_of_eq_wrap32 {v : Word} {z z' : Int} (hv : v = wrap32 z) (hz : wrap32 z = wrap32 z') :
    v = wrap32 z ∧ v = wrap32 z' ∧ (-2147483648 ≤ z → z ≤ 2147483647 → v.toInt = z) :=
  ⟨hv, hv.trans hz, fun hlo hhi => hv ▸ toInt_wrap32_of_range hlo hhi⟩

/-- Settles O47: the rows' words, and the one effect of the family. -/
theorem arithmeticRegisterRules : Obligations.ArithmeticRegisterRules :=
  ⟨AluRegOp.add.words, AluRegOp.sub.words, AluRegOp.mul.words, fun rd rs rt s =>
    ⟨AluRegOp.add.exec_registerWritten rd rs rt s, AluRegOp.sub.exec_registerWritten rd rs rt s,
      AluRegOp.mul.exec_registerWritten rd rs rt s⟩⟩

/-- Settles O48: the rows' words, and the one effect of the family. -/
theorem logicRegisterRules : Obligations.LogicRegisterRules :=
  ⟨AluRegOp.and.words, AluRegOp.or.words, AluRegOp.xor.words, AluRegOp.nor.words, fun rd rs rt s =>
    ⟨AluRegOp.and.exec_registerWritten rd rs rt s, AluRegOp.or.exec_registerWritten rd rs rt s,
      AluRegOp.xor.exec_registerWritten rd rs rt s, AluRegOp.nor.exec_registerWritten rd rs rt s⟩⟩

/-- Settles O50: `wrap32` respects sum, difference and product, and undoes the signed and the unsigned reading alike. -/
theorem arithmeticWrapsSilently : Obligations.ArithmeticWrapsSilently := by
  intro rd rs rt s t
  refine ⟨fun h => wraps_of_eq_wrap32 (AluRegOp.add.exec_dest h) ?_,
    fun h => wraps_of_eq_wrap32 (AluRegOp.sub.exec_dest h) ?_,
    fun h => wraps_of_eq_wrap32 (AluRegOp.mul.exec_dest h) ?_⟩
  · simp only [wrap32_add, wrap32_toInt, wrap32_toNat]
  · simp only [wrap32_sub, wrap32_toInt, wrap32_toNat]
  · simp only [wrap32_mul, wrap32_toInt, wrap32_toNat]

/-- Settles O51: the low word is the product of the words; the corner cases are its products with 0, 1 and -1, and three
products of literals. -/
theorem multiplyReturnsTheLowWord : Obligations.MultiplyReturnsTheLowWord := by
  intro rd rs rt s t h
  have hmul : t.reg rd = aluMul (s.reg rs) (s.reg rt) := AluRegOp.mul.exec_dest h
  rw [hmul]
  refine ⟨aluMul_eq_low_word _ _, toInt_wrap32_of_range, fun hb => ?zero, fun hb => ?one, fun hb ha => ?negOne,
    fun hb ha => ?negOneMin, fun ha hb => ?minSquared, fun ha hb => ?square65536, fun ha hb => ?square65535⟩
  case zero => rw [hb, aluMul_eq, BitVec.mul_zero]
  case one => rw [hb, aluMul_eq, BitVec.mul_one]
  case negOne => rw [hb, aluMul_neg_one, BitVec.toInt_neg_of_ne_intMin ha]
  all_goals
    rw [ha, hb]
    decide

/-- Settles O52: the words' own bit laws, and the complement as a signed number. -/
theorem logicActsBitByBit : Obligations.LogicActsBitByBit := by
  intro rd rs rt s t k hk
  refine ⟨fun h => ?and, fun h => ?or, fun h => ?xor, fun h => ?nor⟩
  case and =>
    rw [AluRegOp.and.exec_dest h]
    exact BitVec.getLsbD_and
  case or =>
    rw [AluRegOp.or.exec_dest h]
    exact BitVec.getLsbD_or
  case xor =>
    rw [AluRegOp.xor.exec_dest h]
    exact BitVec.getLsbD_xor
  case nor =>
    have hnor : t.reg rd = ~~~(s.reg rs ||| s.reg rt) := AluRegOp.nor.exec_dest h
    rw [hnor]
    refine ⟨?_, toInt_complement _, ?_⟩
    · rw [BitVec.getLsbD_not, BitVec.getLsbD_or, decide_eq_true hk, Bool.true_and]
    · rintro rfl
      rw [BitVec.or_self]

/-! ### The frame of the ALU instructions (43_alu_register.md R140, 44_alu_immediate.md R160) -/

/-- Of the instructions with a destination register, all but LW write it and fall through, whatever the state. -/
theorem exec_registerWritten_of_alu {i : Instr} {d : Reg} {s t : State} (hd : destReg i = some d)
    (hlw : ∀ rt offset base, i ≠ .lw rt offset base) (h : exec i s = .next t) : ∃ v, registerWritten s t d v := by
  rcases exec_cases i s with ⟨_, -, ⟨_, rfl, -⟩ | ⟨_, _, _, rfl, -⟩ | ⟨_, _, rfl, -⟩⟩ | ⟨rfl, -⟩ | ⟨d', v, hd', e⟩ |
    ⟨_, _, _, rfl, -, -⟩ | ⟨_, _, _, rfl, -, -⟩ | ⟨_, _, _, rfl, -, -⟩
  case inr.inr.inl =>
    rw [hd] at hd'
    rw [e] at h
    cases hd'
    cases h
    exact ⟨v, registerWritten_setReg_commit s d v⟩
  case inr.inr.inr.inr.inr => exact absurd rfl (hlw _ _ _)
  all_goals cases hd

/-- Settles O54: an ALU instruction does nothing but write its destination and commit. -/
theorem aluFrame : Obligations.AluFrame := by
  intro i d s t hd hlw h
  obtain ⟨v, -, hother, -, -, hrun, hfault, himem, hdmem, hce, htrace⟩ := exec_registerWritten_of_alu hd hlw h
  exact ⟨hother, hrun, hfault, hce, htrace, fun a => by rw [hdmem], fun a => by rw [himem]⟩

end Sys2Proof.Machine

/-! ### The words of the immediate ALU instructions (44_alu_immediate.md R161 to R165) -/

namespace Sys2Proof

/-- The six fixed bits of a Category 3 row are the major opcode 111 and the row's sub-opcode (R71, R76). -/
theorem decode_of_cat3_mask {w : Word} {sub : BitVec 3} (h : w &&& 0xE0070000#32 = encodeC3 sub 0 0 0) :
    decode w = decodeCat3 subop3 w ∧ subAluOf w = sub := by
  have hmask : w &&& 0xE0070000#32 = encodeC3 sub 0 0 0 &&& 0xE0070000#32 := h.trans (cat3_fixed sub _ _ _).symm
  have hmajor : majorOf w = 0b111#3 := (extractLsb'_congr_of_mask hmask (by decide)).trans (encodeC3_major ..)
  have hsub : subAluOf w = sub := (extractLsb'_congr_of_mask hmask (by decide)).trans (encodeC3_sub ..)
  exact ⟨decode_of_major_111 hmajor, hsub⟩

/-- A Category 3 word is what the encoder builds, which has the row's match value in the row's mask. -/
theorem AluImmOp.and_mask_of_decode (op : AluImmOp) {w : Word} {rt rs : Reg} {imm : Word}
    (h : decode w = some (op.instr rt rs imm)) : w &&& 0xE0070000#32 = encodeC3 op.subop 0 0 0 := by
  calc
    w &&& 0xE0070000#32 = encodeC3 op.subop rt rs imm &&& 0xE0070000#32 := by
        rw [← op.encode_instr, encode_of_decode h, op.usedBits_instr, and_all_used]
    _ = encodeC3 op.subop 0 0 0 := cat3_fixed _ _ _ _

/-- The words of a Category 3 operation are exactly those that match its row. -/
theorem AluImmOp.words (op : AluImmOp) (w : Word) : w &&& 0xE0070000#32 = encodeC3 op.subop 0 0 0 ↔
    decode w = some (op.instr (regAt w 19) (regAt w 24) (wrap32 (w.extractLsb' 0 16).toInt)) := by
  refine ⟨fun h => ?_, op.and_mask_of_decode⟩
  obtain ⟨hcat, hsub⟩ := decode_of_cat3_mask h
  rw [hcat, decodeCat3, (subop3_iff_subop _ op).2 hsub]
  rfl

/-- The immediate of a decoded Category 3 instruction is its word's field, sign-extended whatever the operation (R165). -/
theorem AluImmOp.imm_of_decode (op : AluImmOp) {w : Word} {rt rs : Reg} {imm : Word}
    (h : decode w = some (op.instr rt rs imm)) : imm = immOf w := by
  have hfields := (op.words w).1 (op.and_mask_of_decode h)
  rw [h, ← immOf_eq] at hfields
  cases op <;> cases hfields <;> rfl

/-- Bits 31:15 of the immediate are copies of instr[15]. -/
theorem immOf_getLsbD_high (w : Word) {k : Nat} (hlo : 15 ≤ k) (hhi : k < 32) :
    (immOf w).getLsbD k = w.getLsbD 15 := by
  rw [immOf, sext32, BitVec.getLsbD_signExtend, decide_eq_true hhi, Bool.true_and]
  split
  · obtain rfl : k = 15 := by omega
    simp
  · simp [BitVec.msb_eq_getLsbD_last]

/-- The field 0xFFFF is the immediate -1. -/
theorem immOf_of_field_ones {w : Word} (h : w.extractLsb' 0 16 = 0xFFFF#16) : immOf w = BitVec.allOnes 32 := by
  rw [immOf, h]
  rfl

/-! ### The results of the immediate ALU instructions (44_alu_immediate.md R160) -/

section results
open Sys2Proof.Machine

/-- The ALU operation a Category 3 sub-opcode selects. -/
def AluImmOp.result : AluImmOp → Word → Word → Word
  | .addi => aluAdd
  | .andi => aluAnd
  | .ori => aluOr
  | .xori => aluXor

theorem AluImmOp.exec_instr (op : AluImmOp) (rt rs : Reg) (imm : Word) (s : State) :
    exec (op.instr rt rs imm) s = .next (aluImmediate op.result rt rs imm s) := by cases op <;> rfl

theorem AluImmOp.exec_registerWritten (op : AluImmOp) (rt rs : Reg) (imm : Word) (s : State) :
    ∃ t, exec (op.instr rt rs imm) s = .next t ∧ registerWritten s t rt (op.result (s.reg rs) imm) :=
  ⟨_, op.exec_instr rt rs imm s, registerWritten_setReg_commit _ _ _⟩

/-- The source is read before the destination is written, so this holds also where rt = rs. -/
theorem AluImmOp.exec_dest_of_decode (op : AluImmOp) {w : Word} {rt rs : Reg} {imm : Word} {s t : State}
    (hd : decode w = some (op.instr rt rs imm)) (h : exec (op.instr rt rs imm) s = .next t) :
    t.reg rt = op.result (s.reg rs) (immOf w) := by
  obtain ⟨u, hu, hdest, -⟩ := op.exec_registerWritten rt rs imm s
  rw [h] at hu
  cases hu
  rw [hdest, op.imm_of_decode hd]
end results

end Sys2Proof

namespace Sys2Proof.Machine

/-- Settles O49: the rows' words, and the one effect of the family. -/
theorem immediateRules : Obligations.ImmediateRules :=
  ⟨AluImmOp.addi.words, AluImmOp.andi.words, AluImmOp.ori.words, AluImmOp.xori.words, fun rt rs imm s =>
    ⟨AluImmOp.addi.exec_registerWritten rt rs imm s, AluImmOp.andi.exec_registerWritten rt rs imm s,
      AluImmOp.ori.exec_registerWritten rt rs imm s, AluImmOp.xori.exec_registerWritten rt rs imm s⟩⟩

/-- Settles O53: each result is one operation on rs and the sign-extended field, whose bits 31:15 are instr[15]. -/
theorem logicalImmediatesAreSignExtended : Obligations.LogicalImmediatesAreSignExtended := by
  intro w rt rs imm s t
  have himm (op : AluImmOp) (hd : decode w = some (op.instr rt rs imm)) : imm.toInt = (w.extractLsb' 0 16).toInt := by
    rw [op.imm_of_decode hd, immOf_toInt]
  have hori (hd : decode w = some (.ori rt rs imm)) (h : exec (.ori rt rs imm) s = .next t) :
      t.reg rt = s.reg rs ||| immOf w := AluImmOp.ori.exec_dest_of_decode hd h
  have hxori (hd : decode w = some (.xori rt rs imm)) (h : exec (.xori rt rs imm) s = .next t) :
      t.reg rt = s.reg rs ^^^ immOf w := AluImmOp.xori.exec_dest_of_decode hd h
  refine ⟨?signed, fun hd h hones => ?andiOnes, fun hd h hset k hlo hhi => ?oriSet, fun hd h hones => ?xoriOnes,
    fun hd h hclear k hlo hhi => ?oriClear, fun hd h hclear k hlo hhi => ?xoriClear⟩
  case signed =>
    rintro (hd | hd | hd | hd)
    · exact himm .addi hd
    · exact himm .andi hd
    · exact himm .ori hd
    · exact himm .xori hd
  case andiOnes =>
    have handi : t.reg rt = s.reg rs &&& immOf w := AluImmOp.andi.exec_dest_of_decode hd h
    rw [handi, immOf_of_field_ones hones, BitVec.and_allOnes]
  case oriSet => rw [hori hd h, BitVec.getLsbD_or, immOf_getLsbD_high w hlo hhi, hset, Bool.or_true]
  case xoriOnes => rw [hxori hd h, immOf_of_field_ones hones, BitVec.xor_allOnes]
  case oriClear => rw [hori hd h, BitVec.getLsbD_or, immOf_getLsbD_high w hlo hhi, hclear, Bool.or_false]
  case xoriClear => rw [hxori hd h, BitVec.getLsbD_xor, immOf_getLsbD_high w hlo hhi, hclear, Bool.xor_false]

end Sys2Proof.Machine

/-! ### The execute cycle (45_execute_cycle.md R171 to R182) -/

namespace Sys2Proof.Machine

section fetch
variable {s : State} {a w : Word}

/-- What a fetch gives is the code word of an address in the code region. -/
theorem codeWord_of_ifetch (h : s.ifetch a = .ok w) :
    a.toNat % 4 = 0 ∧ 128 ≤ a.toNat ∧ a.toNat ≤ s.codeEnd.toNat ∧ Memory.readWord s.imem a.toNat = some w := by
  rcases ifetch_cases s a with ⟨w', e, hcode⟩ | ⟨e, -⟩ <;> rw [h] at e <;> cases e
  exact hcode

/-- The only fault of a fetch is UnmappedAddress(Fetch, a) (R194). -/
theorem fault_of_ifetch_error {f : FaultRecord} (h : s.ifetch a = .error f) : f = .unmappedAddress .fetch a := by
  rcases ifetch_cases s a with ⟨w, e, -⟩ | ⟨e, -⟩ <;> rw [h] at e <;> cases e
  rfl
end fetch

section cycle
variable {s t : State} {i : Instr}

theorem finishCycle_of_completed (ht : t.run ≠ .faulted) :
    finishCycle s i (.next t) = .next (t.emit (traceRecord s i t)) := by rw [finishCycle, if_neg ht]

theorem finishCycle_of_faulted (ht : t.run = .faulted) : finishCycle s i (.next t) = .next t := by
  rw [finishCycle, if_pos ht]

/-- Only LW and SW take a fault, on the access MemRead or MemWrite refuses (R180). -/
theorem exec_faults_cases (hs : s.run ≠ .faulted) (h : exec i s = .next t) (ht : t.run = .faulted) :
    (∃ rt offset base, i = .lw rt offset base ∧
      memRead s.dmem (s.reg base + offset) = .error (.unmappedAddress .load (s.reg base + offset)) ∧
      t = s.takeFault (.unmappedAddress .load (s.reg base + offset))) ∨
    (∃ rt offset base, i = .sw rt offset base ∧
      memWrite s.dmem (s.reg base + offset) (s.reg rt) = .error (.unmappedAddress .store (s.reg base + offset)) ∧
      t = s.takeFault (.unmappedAddress .store (s.reg base + offset))) := by
  rcases exec_cases i s with ⟨_, e, -⟩ | ⟨-, e⟩ | ⟨_, _, -, e⟩ | ⟨_, _, _, -, -, e⟩ | ⟨rt, offset, base, hi, ha, e⟩ |
    ⟨rt, offset, base, hi, ha, e⟩ <;> rw [e] at h <;> cases h
  · exact absurd ht hs
  · cases ht
  · exact absurd ht hs
  · exact absurd ht hs
  · rw [State.effectiveAddress_eq] at ha ⊢
    exact .inr ⟨rt, offset, base, hi, memWriteIn_of_misaligned ha, rfl⟩
  · rw [State.effectiveAddress_eq] at ha ⊢
    refine .inl ⟨rt, offset, base, hi, ?_, rfl⟩
    by_cases hal : (s.reg base + offset).toNat % 4 = 0
    · exact memRead_of_unmapped hal (ha hal)
    · exact memRead_of_misaligned hal
end cycle

/-- Settles O18: the word at pc is what the fetch gives, and `finishCycle` adds the record or not by the run state. -/
theorem stepRunsTheDecodedInstruction : Obligations.StepRunsTheDecodedInstruction := by
  intro s t w i hr ha hlo hhi hw hd he
  rw [step_of_decoded hr (ifetch_of_codeWord ha hlo hhi hw) hd, he]
  exact ⟨finishCycle_of_completed, finishCycle_of_faulted⟩

/-- Settles O20: neither is Running. -/
theorem haltedAndFaultedHaveNoStep : Obligations.HaltedAndFaultedHaveNoStep := by
  rintro s (hr | hr) <;> exact step_of_not_running (by simp [hr])

/-- Settles O21: the cycle faults at the fetch, or inside the instruction it executes, which is then a LW or a SW. -/
theorem faultingCycleChangesOnlyRunAndFault : Obligations.FaultingCycleChangesOnlyRunAndFault := by
  intro s t hr h ht
  rcases step_cases h with ⟨hn, -⟩ | ⟨-, f, hf, rfl⟩ | ⟨-, w, i, u, hf, hd, he, rfl⟩
  · exact absurd hr hn
  · cases fault_of_ifetch_error hf
    exact ⟨.fetch, s.pc, rfl, fun _ => rfl, nofun, nofun⟩
  · have hu : u.run = .faulted := by
      by_contra hn
      rw [if_neg hn] at ht
      exact hn ht
    obtain ⟨-, -, -, hw⟩ := codeWord_of_ifetch hf
    rw [if_pos hu]
    rcases exec_faults_cases (by simp [hr]) he hu with ⟨rt, offset, base, rfl, hm, rfl⟩ |
      ⟨rt, offset, base, rfl, hm, rfl⟩
    · exact ⟨.load, _, rfl, nofun, fun _ => ⟨w, rt, offset, base, hw, hd, hm, rfl⟩, nofun⟩
    · exact ⟨.store, _, rfl, nofun, nofun, fun _ => ⟨w, rt, offset, base, hw, hd, hm, rfl⟩⟩

/-- Settles O28: the machine with the word placed runs and fetches it at its pc. -/
theorem placedWordIsTheNextRun : Obligations.PlacedWordIsTheNextRun := by
  intro s t nbits w i hd he
  rw [decodeTableWord_eq_decode] at hd
  obtain ⟨hr, hf⟩ := placeCode_fetch s (BitVec.ofNat 32 (w % 2 ^ nbits))
  have hstep : step (s.withFetchWord nbits w) = finishCycle (s.withFetchWord nbits w) i (exec i _) :=
    step_of_decoded hr hf hd
  rw [hstep, he]
  rfl

/-! ### The records of a run (R175) -/

theorem State.ofLoad_traceOk (result : Except FaultRecord Images) : (State.ofLoad result).traceOk := by
  cases result <;> exact ⟨rfl, rfl, Nat.le_refl 1⟩

theorem State.ofLoad_trace (result : Except FaultRecord Images) : (State.ofLoad result).trace = [] := by
  cases result <;> rfl

/-- A clock that leaves the machine Running was a completed cycle, which emitted one record. -/
theorem step_to_running {s t : State} (h : step s = .next t) (ht : t.run = .running) :
    s.run = .running ∧ t.trace.length = s.trace.length + 1 := by
  rcases step_cases_running h with ⟨hn, rfl⟩ | ⟨-, f, rfl⟩ | ⟨hr, w, i, u, -, -, -, he, -, rfl⟩
  · exact absurd ht hn
  · cases ht
  · obtain ⟨-, -, htr⟩ := exec_frame he
    exact ⟨hr, by rw [State.emit_trace, htr, List.length_cons]⟩

/-- A run that ends in Running was Running all along, and emitted one record per clock. -/
theorem run_to_running (n : Nat) {s t : State} (h : Host.Core.run Sys2Proof.core n s = .next t)
    (ht : t.run = .running) : s.run = .running ∧ t.trace.length = s.trace.length + n := by
  induction n generalizing s with
  | zero => cases h; exact ⟨ht, rfl⟩
  | succ n ih =>
    obtain ⟨u, hu, h⟩ := run_succ_next h
    obtain ⟨hur, hlen⟩ := ih h
    obtain ⟨hsr, hlen'⟩ := step_to_running hu hur
    exact ⟨hsr, by omega⟩

/-- Settles O34: every step keeps the records numbered, and a run that ends in Running emitted one record per clock. -/
theorem runEmitsRecordsNumberedFromOne : Obligations.RunEmitsRecordsNumberedFromOne := by
  intro words s0 s n hreset hrun
  obtain ⟨-, rfl⟩ := resetWith_next hreset
  obtain ⟨hnum, hcycle, -⟩ := run_keeps (fun _ _ => step_keeps_traceOk) n (State.ofLoad_traceOk _) hrun
  refine ⟨by rw [List.map_reverse, hnum, List.reverse_reverse], fun hr => ?_, fun hh => ?_⟩
  · obtain ⟨-, hlen⟩ := run_to_running n hrun hr
    rw [State.ofLoad_trace, List.length_nil, Nat.zero_add] at hlen
    exact ⟨hlen, by simpa [hr, hlen] using hcycle⟩
  · simpa [hh] using hcycle.symm

/-! ### Falling through (R182) -/

/-- Behind a code word other than BREAK stands another code word (R37 (b), (c)). -/
theorem State.codeRegionOk.add_four_le_codeEnd {s : State} {a w : Word} {i : Instr} (hc : s.codeRegionOk)
    (ha : a.toNat % 4 = 0) (hw : Memory.readWord s.imem a.toNat = some w) (hd : decode w = some i) (hi : i ≠ .brk) :
    128 ≤ a.toNat ∧ a.toNat + 4 ≤ s.codeEnd.toNat := by
  obtain ⟨-, hce, hregion, hwords⟩ := hc
  obtain ⟨hlo, hhi⟩ := (hregion a ha).1 (by rw [hw]; rfl)
  have hne : a.toNat ≠ s.codeEnd.toNat := by
    obtain ⟨j, hj, hbrk⟩ := hwords a w ha hw
    rw [hd] at hj
    cases hj
    exact fun heq => hi (hbrk.2 (BitVec.eq_of_toNat_eq heq))
  omega

/-- Settles O35: the instruction falls through, and its word, being no BREAK, is not the last of the code region. -/
theorem fallthroughStaysInTheCodeRegion : Obligations.FallthroughStaysInTheCodeRegion := by
  rintro s t w i ⟨-, -, himage, hpc, -, -⟩ hr hw hd hj hbeq hbgtz hbrk h ht
  obtain ⟨hlo, hhi⟩ := (himage.codeRegionOk hr).add_four_le_codeEnd hpc hw hd hbrk
  have hnext : t.pc = s.pc + 4#32 := by
    rcases step_cases_running h with ⟨hn, -⟩ | ⟨-, f, rfl⟩ | ⟨-, w', i', u, -, hw', hd', he, hu, rfl⟩
    · exact absurd hr hn
    · exact absurd rfl ht
    · cases hw.symm.trans hw'
      cases hd.symm.trans hd'
      rw [State.emit_pc]
      exact exec_pc_of_not_transfer hj hbeq hbgtz hbrk he hu
  have hlt := s.codeEnd.isLt
  have hadd : t.pc.toNat = s.pc.toNat + 4 := by
    rw [hnext, BitVec.toNat_add]
    simp only [BitVec.toNat_ofNat]
    omega
  rw [(step_frame h).2, hadd]
  omega

end Sys2Proof.Machine

/-! ### Malformed lines, and what a load can fault with (60_exceptions.md R190 to R193, R199) -/

namespace Sys2Proof.Machine

theorem bitOfChar_eq_none_iff (c : Char) : bitOfChar c = none ↔ c ≠ '0' ∧ c ≠ '1' := by
  rw [bitOfChar]
  split
  · next h => simp [h]
  · next h => simp [h]

/-- Characters write no number exactly when one of them is no binary character. -/
theorem bitsValue_eq_none_iff (acc : Nat) (line : List Char) :
    bitsValue acc line = none ↔ ∃ c ∈ line, c ≠ '0' ∧ c ≠ '1' := by
  induction line generalizing acc with
  | nil => simp [bitsValue]
  | cons c rest ih =>
    simp only [List.mem_cons, exists_eq_or_imp, ← bitOfChar_eq_none_iff, bitsValue] at ih ⊢
    cases bitOfChar c with
    | some b => simpa using ih _
    | none => simp

/-- A line gives no word exactly when its length is not 32 or a character is not binary (R191). -/
theorem parseLine_eq_none_iff (line : List Char) :
    parseLine line = none ↔ line.length ≠ 32 ∨ ∃ c ∈ line, c ≠ '0' ∧ c ≠ '1' := by
  rw [← bitsValue_eq_none_iff 0, parseLine]
  split
  · next h => simp [h]
  · next h => simp [h]

/-- The only fault a single word raises is UnknownOpcode, with its own address and the word (R192). -/
theorem Loading.fault_of_take_error {l : Loading} {n : Nat} {w : Word} {f : FaultRecord} (h : l.take n w = .error f) :
    f = .unknownOpcode (wordAddress n) w := by
  rcases l.take_cases n w with ⟨_, -, e⟩ | ⟨-, -, e⟩ | ⟨-, -, e⟩ | ⟨-, -, e⟩ <;> rw [e] at h <;> cases h
  rfl

/-- A stream of words faults in two ways only: UnknownOpcode and MissingTerminator (R199). -/
theorem loadFrom_error_cases {l : Loading} {n : Nat} {words : List Word} {f : FaultRecord}
    (h : loadFrom l n words = .error f) :
    (∃ a w, f = .unknownOpcode a w) ∨ f = .missingTerminator (wordAddress (n + words.length)) := by
  induction words generalizing l n with
  | nil =>
    rw [loadFrom, Loading.finish] at h
    split at h <;> cases h
    exact .inr rfl
  | cons w rest ih =>
    cases ht : l.take n w with
    | ok l' =>
      rw [loadFrom_cons_of_ok ht] at h
      rw [List.length_cons, Nat.add_comm rest.length, ← Nat.add_assoc]
      exact ih h
    | error f' =>
      rw [loadFrom_cons_of_error ht] at h
      cases h
      exact .inl ⟨_, _, Loading.fault_of_take_error ht⟩

theorem loadTextFrom_cons_of_malformed {line : List Char} (hline : parseLine line = none) (l : Loading) (n : Nat)
    (rest : List (List Char)) : loadTextFrom l n (line :: rest) = .error (.malformedWord n line) := by
  simp only [loadTextFrom, hline]

theorem loadTextFrom_cons_of_word {l l' : Loading} {n : Nat} {w : Word} (h : l.take n w = .ok l')
    (rest : List (List Char)) : loadTextFrom l n (lineOfWord w :: rest) = loadTextFrom l' (n + 1) rest := by
  simp only [loadTextFrom, parseLine_lineOfWord, h]

/-- A malformed line after words none of which raises UnknownOpcode ends the load with its index and text (R191). -/
theorem loadTextFrom_of_malformed {l : Loading} {n : Nat} {before : List Word} {line : List Char}
    (hbefore : ∀ a w, loadFrom l n before ≠ .error (.unknownOpcode a w)) (hline : parseLine line = none)
    (after : List (List Char)) :
    loadTextFrom l n (before.map lineOfWord ++ line :: after) =
      .error (.malformedWord (n + before.length) line) := by
  induction before generalizing l n with
  | nil => exact loadTextFrom_cons_of_malformed hline l n after
  | cons w rest ih =>
    cases ht : l.take n w with
    | ok l' =>
      rw [loadFrom_cons_of_ok ht] at hbefore
      rw [List.map_cons, List.cons_append, loadTextFrom_cons_of_word ht, ih hbefore, List.length_cons,
        Nat.add_comm rest.length, Nat.add_assoc]
    | error f =>
      have hf := Loading.fault_of_take_error ht
      exact absurd (by rw [loadFrom_cons_of_error ht, hf]) (hbefore (wordAddress n) w)

/-- Settles O17: the words before the malformed line pass the loader, and a load of words has no MalformedWord among
its faults. -/
theorem malformedLineEndsTheLoad : Obligations.MalformedLineEndsTheLoad := by
  refine ⟨parseLine_eq_none_iff, parseLine_lineOfWord, fun before line after hbefore hline => ?_,
    fun words n text h => ?_⟩
  · have hload := loadTextFrom_of_malformed hbefore hline after
    rwa [Nat.zero_add] at hload
  · rcases loadFrom_error_cases h with ⟨a, w, hf⟩ | hf <;> cases hf

/-! ### No instruction stops or refuses (60_exceptions.md R201, R203) -/

/-- Settles O25: each of the things an instruction can do answers a next state. -/
theorem everyInstructionAnswersANextState : Obligations.EveryInstructionAnswersANextState := exec_next

/-! ### The fault outputs (60_exceptions.md R197) -/

/-- Settles O57: each kind of record has its row in the four outputs; only UnmappedAddress is read further, by its
access. -/
theorem faultOutputsAreThoseOfTheTable : Obligations.FaultOutputsAreThoseOfTheTable := by
  refine ⟨⟨rfl, rfl⟩, fun i text => ⟨rfl, rfl, rfl, rfl⟩, fun a w => ⟨rfl, rfl, rfl, rfl⟩,
    fun a => ⟨rfl, rfl, rfl, rfl⟩, fun access a => ⟨rfl, ?_, rfl, rfl⟩⟩
  cases access
  · rfl
  · rfl
  · rfl

end Sys2Proof.Machine

/-! ### What a reset sets (70_reset_and_hazards.md R220, R221) -/

namespace Sys2Proof.Machine

section reset
variable {result : Except FaultRecord Images} {images : Images} {f : FaultRecord}

/-- Whether the load failed or not, reset sets every register to 0 (R35). -/
theorem State.ofLoad_reg (r : Reg) : (State.ofLoad result).reg r = 0#32 := by
  cases result with
  | ok images => exact State.reset_reg r
  | error f => exact (State.takeFault_reg State.reset f r).trans (State.reset_reg r)

/-- Whether the load failed or not, the first cycle has number 1 (R35). -/
theorem State.ofLoad_cycle : (State.ofLoad result).cycle = 1 := by
  cases result <;> rfl

/-- The pieces of state that reset takes from a load that succeeds (R220). -/
theorem State.ofLoad_ok :
    (State.ofLoad (.ok images)).run = .running ∧ (State.ofLoad (.ok images)).fault = none ∧
      (State.ofLoad (.ok images)).imem = images.imem ∧ (State.ofLoad (.ok images)).dmem = images.dmem ∧
      (State.ofLoad (.ok images)).codeEnd = images.codeEnd := ⟨rfl, rfl, rfl, rfl, rfl⟩

/-- A load that fails leaves its fault and no image (R221). -/
theorem State.ofLoad_error :
    (State.ofLoad (.error f)).run = .faulted ∧ (State.ofLoad (.error f)).fault = some f ∧
      (State.ofLoad (.error f)).imem = [] ∧ (State.ofLoad (.error f)).dmem = [] := ⟨rfl, rfl, rfl, rfl⟩
end reset

/-- Settles O12: the registers, pc and cycle of every reset, and what reset takes from the images. -/
theorem resetAfterSuccessfulLoad : Obligations.ResetAfterSuccessfulLoad := fun words images hn h =>
  ⟨State.ofLoad (.ok images), by rw [resetWith_of_le hn, h],
    State.ofLoad_reg, State.ofLoad_pc _, State.ofLoad_cycle, State.ofLoad_ok⟩

/-- Settles O13: the registers, pc, cycle and trace of every reset; a Faulted machine takes no step (R181). -/
theorem resetAfterFailedLoad : Obligations.ResetAfterFailedLoad := by
  intro words f hn h
  obtain ⟨hrun, hfault, himem, hdmem⟩ := State.ofLoad_error (f := f)
  have hidle : step (State.ofLoad (.error f)) = .next (State.ofLoad (.error f)) :=
    step_of_not_running (by simp [hrun])
  exact ⟨State.ofLoad (.error f), by rw [resetWith_of_le hn, h], hrun, hfault, State.ofLoad_reg,
    State.ofLoad_pc _, State.ofLoad_cycle, himem, hdmem, State.ofLoad_trace _, hidle⟩

end Sys2Proof.Machine

/-! ### The spec's example words (95_test_vectors.md V2) -/

namespace Sys2Proof

/-- The word an instruction within its ranges encodes to decodes to it. -/
theorem decode_of_encode_eq {i : Instr} {w : Word} (hi : i.wellFormed = true) (hw : encode i = w) :
    decode w = some i := by
  rw [← hw, decode_encode hi]

/-- Settles O1: each of the seventeen words is the encoding of its instruction, and each of the four illegal words lies
in its own row of R82. -/
theorem specWordsDecode : Obligations.SpecWordsDecode := by
  refine ⟨?_, ?_, ?_, ?_, ?_, ?_, ?_, ?_, ?_, ?_, ?_, ?_, ?_, ?_, ?_, ?_, ?_, ?illegal⟩
  case illegal =>
    simp only [decode_eq_none_iff]
    decide
  all_goals exact decode_of_encode_eq (by decide) (by decide)

end Sys2Proof

/-! ### The invariant at a reset (10_state.md R37, 70_reset_and_hazards.md R220, R221) -/

namespace Sys2Proof.Machine

/-- A load that fails leaves empty memories and a machine Faulted with its record at 128, before any trace record. -/
theorem State.ofLoad_error_inv (f : FaultRecord) : (State.ofLoad (.error f)).Inv := by
  obtain ⟨hrun, hfault, himem, hdmem⟩ := State.ofLoad_error (f := f)
  have himage : (State.ofLoad (.error f)).imageOk := .inl ⟨himem, hrun⟩
  have hrunOk : (State.ofLoad (.error f)).runOk := ⟨by simp [hrun, hfault], by simp [hrun]⟩
  exact ⟨himem ▸ Memory.wf_nil, hdmem ▸ Memory.wf_nil, himage, by rw [State.ofLoad_pc]; rfl, hrunOk,
    State.ofLoad_traceOk _⟩

/-- Settles O31: a load that succeeds has the loader's shape, and one that fails leaves no image. -/
theorem loadedMachineSatisfiesInv : Obligations.LoadedMachineSatisfiesInv := by
  intro words s hreset
  obtain ⟨hn, rfl⟩ := resetWith_next hreset
  cases h : load words with
  | ok images => exact (load_shape hn h).inv
  | error f => exact State.ofLoad_error_inv f

/-- Settles O29: the model's reset is the reset with the empty stream. -/
theorem resetSatisfiesInv : Obligations.ResetSatisfiesInv := loadedMachineSatisfiesInv [] State.reset rfl

end Sys2Proof.Machine
